-- ==== Sys2Proof/Word.lean ====
section
/-!
DEFINITION. The word types of the CHIP-8 core (spec/00_scope.md R8): every value is unsigned, bit 0 is the least
significant bit, and nothing in this instruction set is signed.
-/

namespace Sys2Proof

/-- A 4-bit field: a register index, a key id, a hex digit or a sprite's row count (R81). -/
abbrev Nibble := BitVec 4

/-- An 8-bit unsigned value (R8). -/
abbrev Byte := BitVec 8

/-- The 12-bit address field `nnn` (R81). -/
abbrev Addr12 := BitVec 12

/-- A 16-bit unsigned value: an opcode, `I`, `pc` or a stack entry (R8). -/
abbrev Word := BitVec 16

end Sys2Proof
end

