-- ==== Sys2Proof/Config.lean ====
section
/-!
DEFINITION. The parameters of the block (spec/00_scope.md R7), their defaults, and its one free value. A session's
parameters are plain data (`Config`), carried unchanged in the state (assumption 1), so a statement about every state is
a statement about every choice of them. The bytes RND draws are free (assumption 2).
-/

namespace Sys2Proof

/-- SHIFT_SOURCE (R7, R139, R141): which register 8xy6 and 8xyE shift. -/
inductive ShiftSource where
  /-- shift Vx in place -/
  | vx
  /-- Vx <- Vy shifted -/
  | vy
  deriving DecidableEq, Repr

/-- LOAD_STORE_I (R7, R205): what Fx55 and Fx65 leave in `I`. -/
inductive LoadStoreI where
  | unchanged
  | plusXPlus1
  | plusX
  deriving DecidableEq, Repr

/-- INVALID_OPCODE_POLICY (R7, R91): what an invalid word does. -/
inductive InvalidOpcodePolicy where
  | halt
  | skip
  deriving DecidableEq, Repr

/-- The parameters of R7 that are values. `cpuHz` is a positive integer (`Config.wellFormed`); `font` is the 80 bytes
placed at 0x000..0x04F. -/
structure Config where
  cpuHz : Nat
  shiftSource : ShiftSource
  loadStoreI : LoadStoreI
  invalidOpcodePolicy : InvalidOpcodePolicy
  font : Vector Byte 80
  deriving DecidableEq, Repr

/-- R53: the default FONT, five bytes a glyph, glyph d at 5·d (R52). -/
def Config.defaultFont : Vector Byte 80 := #v[
  0xF0, 0x90, 0x90, 0x90, 0xF0,  0x20, 0x60, 0x20, 0x20, 0x70,
  0xF0, 0x10, 0xF0, 0x80, 0xF0,  0xF0, 0x10, 0xF0, 0x10, 0xF0,
  0x90, 0x90, 0xF0, 0x10, 0x10,  0xF0, 0x80, 0xF0, 0x10, 0xF0,
  0xF0, 0x80, 0xF0, 0x90, 0xF0,  0xF0, 0x10, 0x20, 0x40, 0x40,
  0xF0, 0x90, 0xF0, 0x90, 0xF0,  0xF0, 0x90, 0xF0, 0x10, 0xF0,
  0xF0, 0x90, 0xF0, 0x90, 0x90,  0xE0, 0x90, 0xE0, 0x90, 0xE0,
  0xF0, 0x80, 0x80, 0x80, 0xF0,  0xE0, 0x90, 0x90, 0x90, 0xE0,
  0xF0, 0x80, 0xF0, 0x80, 0xF0,  0xF0, 0x80, 0xF0, 0x80, 0x80]

/-- The defaults of R7. -/
def Config.default : Config where
  cpuHz := 700
  shiftSource := .vx
  loadStoreI := .unchanged
  invalidOpcodePolicy := .halt
  font := Config.defaultFont

/-- TIMER_HZ (R6, R231): 60, fixed and not configurable. -/
def timerHz : Nat := 60

/-- FREE VALUE (R7 `RNG`, R142; spec/93_implementation_defined.md U7; assumption 2): the byte that draw number `k` of the
RNG parameter yields. No body: a proof holds for every byte sequence. -/
opaque Config.rngByte : Nat → Byte

end Sys2Proof
end

