-- ==== Sys2Proof/Syntax.lean ====
section
/-!
DEFINITION. The syntax of the 34 instructions (spec/30_encoding.md R84, R85): one constructor per row of
spec/opcode_table.json, in the table's order, its operands the fields of R81. Every 16-bit word that is not invalid is
exactly one term (the fields of R81 are complete), and every term has a word: an operand's type is its field.
-/

namespace Sys2Proof

/-- The instruction variants of R84. `x` and `y` select registers, `kk` is an immediate byte, `nnn` a 12-bit address
and `n` a sprite's row count (R83). -/
inductive Instr where
  /-- 00E0, R161 -/
  | cls
  /-- 00EE, R110 -/
  | ret
  /-- 1nnn, R111 -/
  | jp (nnn : Addr12)
  /-- 2nnn, R112 -/
  | call (nnn : Addr12)
  /-- 3xkk, R113 -/
  | seImm (x : Nibble) (kk : Byte)
  /-- 4xkk, R114 -/
  | sneImm (x : Nibble) (kk : Byte)
  /-- 5xy0, R115 -/
  | seReg (x y : Nibble)
  /-- 6xkk, R131 -/
  | ldImm (x : Nibble) (kk : Byte)
  /-- 7xkk, R132 -/
  | addImm (x : Nibble) (kk : Byte)
  /-- 8xy0, R133 -/
  | ldReg (x y : Nibble)
  /-- 8xy1, R134 -/
  | or (x y : Nibble)
  /-- 8xy2, R135 -/
  | and (x y : Nibble)
  /-- 8xy3, R136 -/
  | xor (x y : Nibble)
  /-- 8xy4, R137 -/
  | addReg (x y : Nibble)
  /-- 8xy5, R138 -/
  | sub (x y : Nibble)
  /-- 8xy6, R139; `y` is kept although SHIFT_SOURCE = VX ignores it (R88) -/
  | shr (x y : Nibble)
  /-- 8xy7, R140 -/
  | subn (x y : Nibble)
  /-- 8xyE, R141; `y` is kept although SHIFT_SOURCE = VX ignores it (R88) -/
  | shl (x y : Nibble)
  /-- 9xy0, R116 -/
  | sneReg (x y : Nibble)
  /-- Annn, R200 -/
  | ldI (nnn : Addr12)
  /-- Bnnn, R117 -/
  | jpV0 (nnn : Addr12)
  /-- Cxkk, R142 -/
  | rnd (x : Nibble) (kk : Byte)
  /-- Dxyn, R162 -/
  | drw (x y n : Nibble)
  /-- Ex9E, R180 -/
  | skp (x : Nibble)
  /-- ExA1, R181 -/
  | sknp (x : Nibble)
  /-- Fx07, R184 -/
  | ldVxDt (x : Nibble)
  /-- Fx0A, R182 -/
  | ldVxK (x : Nibble)
  /-- Fx15, R185 -/
  | ldDtVx (x : Nibble)
  /-- Fx18, R186 -/
  | ldStVx (x : Nibble)
  /-- Fx1E, R201 -/
  | addIVx (x : Nibble)
  /-- Fx29, R165 -/
  | ldFVx (x : Nibble)
  /-- Fx33, R202 -/
  | ldBVx (x : Nibble)
  /-- Fx55, R203 -/
  | ldMemVx (x : Nibble)
  /-- Fx65, R204 -/
  | ldVxMem (x : Nibble)
  deriving DecidableEq, Repr

end Sys2Proof
end

