-- ==== Sys2Proof/Decode.lean ====
section
/-!
DEFINITION. The decoder and the encoder (spec/30_encoding.md R80 to R88). Every instruction is one 16-bit word, fetched
big-endian (R80; spec/20_memory.md R58). `decodeWord` is R84 case by case; a word with no instruction is rejected by name.
-/

namespace Sys2Proof

/-- R81: `op = w[15:12]`. -/
def opField (w : Word) : Nibble := w.extractLsb' 12 4

/-- R81: `x = w[11:8]`. -/
def xField (w : Word) : Nibble := w.extractLsb' 8 4

/-- R81: `y = w[7:4]`. -/
def yField (w : Word) : Nibble := w.extractLsb' 4 4

/-- R81: `n = w[3:0]`. -/
def nField (w : Word) : Nibble := w.extractLsb' 0 4

/-- R81: `kk = w[7:0]`. -/
def kkField (w : Word) : Byte := w.extractLsb' 0 8

/-- R81: `nnn = w[11:0]`. -/
def nnnField (w : Word) : Addr12 := w.extractLsb' 0 12

/-- The 0x8 family of R84: the function nibble selects one of nine operations. -/
def decode8 (x y : Nibble) (n : Nat) : Option Instr :=
  match n with
  | 0x0 => some (.ldReg x y)
  | 0x1 => some (.or x y)
  | 0x2 => some (.and x y)
  | 0x3 => some (.xor x y)
  | 0x4 => some (.addReg x y)
  | 0x5 => some (.sub x y)
  | 0x6 => some (.shr x y)
  | 0x7 => some (.subn x y)
  | 0xE => some (.shl x y)
  | _ => none

/-- The 0xE family of R84. -/
def decodeE (x : Nibble) (kk : Nat) : Option Instr :=
  match kk with
  | 0x9E => some (.skp x)
  | 0xA1 => some (.sknp x)
  | _ => none

/-- The 0xF family of R84: the function byte selects one of nine operations. -/
def decodeF (x : Nibble) (kk : Nat) : Option Instr :=
  match kk with
  | 0x07 => some (.ldVxDt x)
  | 0x0A => some (.ldVxK x)
  | 0x15 => some (.ldDtVx x)
  | 0x18 => some (.ldStVx x)
  | 0x1E => some (.addIVx x)
  | 0x29 => some (.ldFVx x)
  | 0x33 => some (.ldBVx x)
  | 0x55 => some (.ldMemVx x)
  | 0x65 => some (.ldVxMem x)
  | _ => none

/-- R84: every 16-bit word is exactly one instruction, or `none` (the rule's `Invalid`). -/
def decodeWord (w : Word) : Option Instr :=
  match (opField w).toNat with
  | 0x0 => if w = 0x00E0 then some .cls else if w = 0x00EE then some .ret else none
  | 0x1 => some (.jp (nnnField w))
  | 0x2 => some (.call (nnnField w))
  | 0x3 => some (.seImm (xField w) (kkField w))
  | 0x4 => some (.sneImm (xField w) (kkField w))
  | 0x5 => if nField w = 0 then some (.seReg (xField w) (yField w)) else none
  | 0x6 => some (.ldImm (xField w) (kkField w))
  | 0x7 => some (.addImm (xField w) (kkField w))
  | 0x8 => decode8 (xField w) (yField w) (nField w).toNat
  | 0x9 => if nField w = 0 then some (.sneReg (xField w) (yField w)) else none
  | 0xA => some (.ldI (nnnField w))
  | 0xB => some (.jpV0 (nnnField w))
  | 0xC => some (.rnd (xField w) (kkField w))
  | 0xD => some (.drw (xField w) (yField w) (nField w))
  | 0xE => decodeE (xField w) (kkField w).toNat
  | 0xF => decodeF (xField w) (kkField w).toNat
  | _ => none

/-- Why a sequence of bytes is no instruction. -/
inductive Reject where
  /-- The word is invalid (R86): what the machine does with it is INVALID_OPCODE_POLICY's (R91). -/
  | invalidOpcode (w : Word)
  /-- Fewer than two bytes: an instruction is always two (R80). -/
  | truncated
  deriving DecidableEq, Repr

/-- R58: the byte at `pc` is bits 15..8 of the opcode (the `hi ++ lo` of R8, written on naturals). -/
def wordOfBytes (hi lo : Byte) : Word := BitVec.ofNat 16 (0x100 * hi.toNat + lo.toNat)

/-- The decoder over any bytes: the first instruction and the bytes after it, or the reason there is none. -/
def decodeBytes : List Byte → Except Reject (Instr × List Byte)
  | hi :: lo :: rest =>
    match decodeWord (wordOfBytes hi lo) with
    | some i => .ok (i, rest)
    | none => .error (.invalidOpcode (wordOfBytes hi lo))
  | _ => .error .truncated

/-- An opcode as the two bytes the hardware stores, the more significant at the lower address (R58). -/
def bytesOfWord (w : Word) : List Byte := [w.extractLsb' 8 8, w.extractLsb' 0 8]

/-- The word a table row's bits stand for: all 16 bits of an instruction, those from `nbits` on zero. -/
def tableWord (nbits w : Nat) : Word := BitVec.ofNat 16 (w % 2 ^ nbits)

/-- What the decoder reads from an instruction whose bits are `w`, laid out as the hardware stores it. -/
def decodeTableWord (nbits w : Nat) : Option Instr :=
  match decodeBytes (bytesOfWord (tableWord nbits w)) with
  | .ok (i, _) => some i
  | .error _ => none

/-- Format XKK of R82. -/
def encodeXKK (op x : Nibble) (kk : Byte) : Word :=
  BitVec.ofNat 16 (0x1000 * op.toNat + 0x100 * x.toNat + kk.toNat)

/-- Formats XY0 and XYN of R82. -/
def encodeXYN (op x y n : Nibble) : Word :=
  BitVec.ofNat 16 (0x1000 * op.toNat + 0x100 * x.toNat + 0x10 * y.toNat + n.toNat)

/-- Format NNN of R82. -/
def encodeNNN (op : Nibble) (nnn : Addr12) : Word := BitVec.ofNat 16 (0x1000 * op.toNat + nnn.toNat)

/-- The encoder: each instruction's word, written from the formats of R82 and the encoding line of its rule. -/
def encode : Instr → Word
  | .cls => 0x00E0
  | .ret => 0x00EE
  | .jp nnn => encodeNNN 0x1 nnn
  | .call nnn => encodeNNN 0x2 nnn
  | .seImm x kk => encodeXKK 0x3 x kk
  | .sneImm x kk => encodeXKK 0x4 x kk
  | .seReg x y => encodeXYN 0x5 x y 0x0
  | .ldImm x kk => encodeXKK 0x6 x kk
  | .addImm x kk => encodeXKK 0x7 x kk
  | .ldReg x y => encodeXYN 0x8 x y 0x0
  | .or x y => encodeXYN 0x8 x y 0x1
  | .and x y => encodeXYN 0x8 x y 0x2
  | .xor x y => encodeXYN 0x8 x y 0x3
  | .addReg x y => encodeXYN 0x8 x y 0x4
  | .sub x y => encodeXYN 0x8 x y 0x5
  | .shr x y => encodeXYN 0x8 x y 0x6
  | .subn x y => encodeXYN 0x8 x y 0x7
  | .shl x y => encodeXYN 0x8 x y 0xE
  | .sneReg x y => encodeXYN 0x9 x y 0x0
  | .ldI nnn => encodeNNN 0xA nnn
  | .jpV0 nnn => encodeNNN 0xB nnn
  | .rnd x kk => encodeXKK 0xC x kk
  | .drw x y n => encodeXYN 0xD x y n
  | .skp x => encodeXKK 0xE x 0x9E
  | .sknp x => encodeXKK 0xE x 0xA1
  | .ldVxDt x => encodeXKK 0xF x 0x07
  | .ldVxK x => encodeXKK 0xF x 0x0A
  | .ldDtVx x => encodeXKK 0xF x 0x15
  | .ldStVx x => encodeXKK 0xF x 0x18
  | .addIVx x => encodeXKK 0xF x 0x1E
  | .ldFVx x => encodeXKK 0xF x 0x29
  | .ldBVx x => encodeXKK 0xF x 0x33
  | .ldMemVx x => encodeXKK 0xF x 0x55
  | .ldVxMem x => encodeXKK 0xF x 0x65

end Sys2Proof
end

