-- ==== Sys2Proof/Machine/Memory.lean ====
section
/-!
DEFINITION. Memory: a flat store of 4096 bytes (spec/20_memory.md R50), held as the list of the cells that differ from
the image the empty program leaves (spec/70_reset_and_hazards.md R270), in one canonical form: addresses strictly rising,
below 4096, no cell equal to what an unlisted address reads as (assumption 6).
-/

namespace Sys2Proof.Machine

/-- MEM_SIZE (R6): 4096 bytes, addresses 0x000..0xFFF. -/
def memSize : Nat := 4096

/-- The end of the font region 0x000..0x04F (R51). -/
def fontSize : Nat := 80

/-- What an unlisted address reads as: FONT in 0x000..0x04F and 0x00 everywhere else (R36, R270). -/
def Memory.unlisted (c : Config) (a : Nat) : Byte := if h : a < 80 then c.font[a] else 0

/-- The listed byte at an address, if there is one. -/
def Memory.find : List Host.Cell → Nat → Option Byte
  | [], _ => none
  | (b, v) :: rest, a => if b = a then some v else Memory.find rest a

/-- The byte at an address. -/
def Memory.read (c : Config) (m : List Host.Cell) (a : Nat) : Byte := (Memory.find m a).getD (Memory.unlisted c a)

/-- The list with the cell `(a, v)` in its place, any older cell at `a` gone. -/
def Memory.insert : List Host.Cell → Nat → Byte → List Host.Cell
  | [], a, v => [(a, v)]
  | (b, w) :: rest, a, v =>
    if a < b then (a, v) :: (b, w) :: rest
    else if a = b then (a, v) :: rest
    else (b, w) :: Memory.insert rest a v

/-- The list without a cell at `a`. -/
def Memory.erase : List Host.Cell → Nat → List Host.Cell
  | [], _ => []
  | (b, w) :: rest, a => if a = b then rest else (b, w) :: Memory.erase rest a

/-- A byte written at an address: the value an unlisted address reads as removes the cell. -/
def Memory.write (c : Config) (m : List Host.Cell) (a : Nat) (v : Byte) : List Host.Cell :=
  if v = Memory.unlisted c a then Memory.erase m a else Memory.insert m a v

/-- The cells' addresses rise strictly, from `lo` on. -/
def Memory.rising : Nat → List Host.Cell → Bool
  | _, [] => true
  | lo, (a, _) :: rest => decide (lo ≤ a) && Memory.rising (a + 1) rest

/-- One cell of the canonical form: an address of the space (R50), holding what an unlisted address does not. -/
def Memory.cellOk (c : Config) (cell : Host.Cell) : Bool :=
  decide (cell.1 < memSize) && decide (cell.2 ≠ Memory.unlisted c cell.1)

/-- The canonical form. -/
def Memory.wf (c : Config) (m : List Host.Cell) : Bool := Memory.rising 0 m && m.all (Memory.cellOk c)

end Sys2Proof.Machine
end

