-- ==== Sys2Proof/Machine/State.lean ====
section
/-!
DEFINITION. The state of the block (spec/10_state.md): every piece of state the spec names, as plain data, and its value
after initialisation (R36). `config` and `rngDraws` are the model's own fields (assumptions 1 and 2).
-/

namespace Sys2Proof.Machine

/-- The access an AddressFault names (spec/60_exceptions.md R220). -/
inductive Access where
  | fetch
  | read
  | write
  deriving DecidableEq, Repr

/-- The kinds of ExecutionError (R220, codes 1 to 5). LoadError is no kind of a step's error: see `LoadError`. -/
inductive ErrorKind where
  | invalidOpcode
  | stackOverflow
  | stackUnderflow
  | addressFault
  | operandFault
  deriving DecidableEq, Repr

/-- The `detail` of a fault record (R32): the faulting address and access of an AddressFault, the operand value of an
OperandFault, nothing for the other kinds. Addresses are naturals (R50). -/
inductive Detail where
  | none
  | access (a : Nat) (k : Access)
  | operand (v : Byte)
  deriving DecidableEq, Repr

/-- R32: a fault record. `addr` is the address of the instruction being executed, or of the failed fetch; `word` its
opcode, absent for a fetch fault. -/
structure FaultRecord where
  kind : ErrorKind
  addr : Word
  word : Option Word
  detail : Detail
  deriving DecidableEq, Repr

/-- R31: the run mode. -/
inductive Mode where
  /-- a step fetches and executes -/
  | running
  /-- a step polls the latch; `x` is the register of the Fx0A -/
  | waitingForKey (x : Nibble)
  /-- terminal (spec/60_exceptions.md R226) -/
  | halted (f : FaultRecord)
  deriving DecidableEq, Repr

/-- R28: 32 rows of 64 one-bit pixels, `fb[r][c]` with row r = y and column c = x; true is on. -/
abbrev Framebuffer := Vector (Vector Bool 64) 32

/-- The state (R20 to R36). -/
structure State where
  /-- the session's parameters (spec/00_scope.md R7), the model's own field: assumption 1 -/
  config : Config
  /-- V0..VF (R20, R21) -/
  v : Vector Byte 16
  /-- the index register I (R24) -/
  i : Word
  /-- the program counter (R22) -/
  pc : Word
  /-- the return stack (R25), not in memory -/
  stack : Vector Word 16
  /-- SP, the number of stack entries in use, 0..16 (R26) -/
  sp : Fin 17
  /-- the delay timer (R27) -/
  dt : Byte
  /-- the sound timer (R27) -/
  st : Byte
  /-- the framebuffer (R28) -/
  fb : Framebuffer
  /-- the logical keys held (R29) -/
  keys : Vector Bool 16
  /-- the key-wait latch (R30) -/
  latch : Option Nibble
  /-- the run mode and fault record (R31, R32) -/
  mode : Mode
  /-- memory (spec/20_memory.md R50), in the canonical form of `Memory.wf` -/
  mem : List Host.Cell
  /-- the RNG state (R33): how many bytes have been drawn, the model's own form: assumption 2 -/
  rngDraws : Nat
  /-- T_ns (R33), nanoseconds since initialisation -/
  tNs : Nat
  /-- cpu_done (R33), CPU steps issued by advance -/
  cpuDone : Nat
  /-- tmr_done (R33), timer ticks issued by advance -/
  tmrDone : Nat
  deriving DecidableEq, Repr

/-- The reasons a step stops without a next state. There is NONE: every error of this block has an entry the spec
describes (spec/60_exceptions.md R222), which the model takes as a next state in mode Halted, and a step in Halted
changes nothing (R226), which is a next state too (assumption 4). So no one raises a fault, and none is unsafe. -/
inductive Fault where
  deriving DecidableEq, Repr

/-- The reasons an instruction has no meaning. -/
inductive Refusal where
  /-- raised by `exec` for an instruction whose meaning is not written; safe (the model stops where the block goes on).
  Every instruction of the table has its meaning, so no arm raises it. -/
  | notModelled (mnemonic : String)
  deriving DecidableEq, Repr

/-- The state R36 gives after initialisation with an empty program, for a session's parameters. Memory lists nothing:
every byte is the image's own (R270). -/
def State.powerOn (c : Config) : State where
  config := c
  v := Vector.replicate 16 0
  i := 0
  pc := 0x200
  stack := Vector.replicate 16 0
  sp := 0
  dt := 0
  st := 0
  fb := Vector.replicate 32 (Vector.replicate 64 false)
  keys := Vector.replicate 16 false
  latch := none
  mode := .running
  mem := []
  rngDraws := 0
  tNs := 0
  cpuDone := 0
  tmrDone := 0

/-- The machine right after reset (R36, R271) with the default parameters of R7 and no program loaded. A program is
loaded from outside the machine by `initialize` (R270): see `initialised` and assumption 7. -/
def State.reset : State := State.powerOn Config.default

end Sys2Proof.Machine
end

