-- ==== Sys2Proof/Machine/Ops.lean ====
section
/-!
DEFINITION. The named operations over the state: register, memory, stack, mode and framebuffer access, the checks every
memory access goes through (spec/20_memory.md R56, R57), and error entry, ONE operation for every error
(spec/60_exceptions.md R222). There is no return from an error (R225).
-/

namespace Sys2Proof.Machine

/-! ## One update per field -/

/-- `V[x]` (R9). -/
def State.getV (s : State) (x : Nibble) : Byte := s.v[x.toNat]'x.isLt

/-- `V[x] <- b` (R9). -/
def State.setV (s : State) (x : Nibble) (b : Byte) : State := { s with v := s.v.set x.toNat b x.isLt }

/-- `I <- w`. -/
def State.setI (s : State) (w : Word) : State := { s with i := w }

/-- `pc <- w`. -/
def State.setPc (s : State) (w : Word) : State := { s with pc := w }

/-- `DT <- b`. -/
def State.setDt (s : State) (b : Byte) : State := { s with dt := b }

/-- `ST <- b`. -/
def State.setSt (s : State) (b : Byte) : State := { s with st := b }

/-- The framebuffer replaced. -/
def State.setFb (s : State) (f : Framebuffer) : State := { s with fb := f }

/-- The key state replaced. -/
def State.setKeys (s : State) (k : Vector Bool 16) : State := { s with keys := k }

/-- `latch <- l`. -/
def State.setLatch (s : State) (l : Option Nibble) : State := { s with latch := l }

/-- `mode <- m`. -/
def State.setMode (s : State) (m : Mode) : State := { s with mode := m }

/-- `draw RNG` (R9, R142): the next byte of the RNG parameter, a free value (assumption 2). -/
def State.rngNext (s : State) : Byte := Config.rngByte s.rngDraws

/-- The RNG state after one draw (R142: it "advances once"). -/
def State.rngAdvance (s : State) : State := { s with rngDraws := s.rngDraws + 1 }

/-! ## The stack (R26) -/

/-- `push(w)`, or nothing where SP = 16. -/
def State.push (s : State) (w : Word) : Option State :=
  if h : s.sp.val < 16 then
    some { s with stack := s.stack.set s.sp.val w h, sp := ⟨s.sp.val + 1, Nat.succ_lt_succ h⟩ }
  else none

/-- `pop()`, the entry and the state after, or nothing where SP = 0. The vacated entry keeps its value. -/
def State.pop (s : State) : Option (Word × State) :=
  match s.sp with
  | ⟨0, _⟩ => none
  | ⟨n + 1, h⟩ => some (s.stack[n]'(Nat.lt_of_succ_lt_succ h), { s with sp := ⟨n, Nat.lt_of_succ_lt h⟩ })

/-! ## Memory (R56 to R58) -/

/-- The byte at an address: the unchecked read behind MemRead and Fetch16 (R56). -/
def State.byteAt (s : State) (a : Nat) : Byte := Memory.read s.config s.mem a

/-- The unchecked write behind MemWrite (R56). -/
def State.putByte (s : State) (a : Nat) (b : Byte) : State := { s with mem := Memory.write s.config s.mem a b }

/-- R56: the addresses a read or a fetch faults on. -/
def readFaults (a : Nat) : Bool := decide (0xFFF < a)

/-- R56, R54: the addresses a write faults on. -/
def writeFaults (a : Nat) : Bool := decide (0xFFF < a) || decide (a ≤ 0x04F)

/-- R57: the lowest of the `n` addresses from `base` on that an access faults on, if any. -/
def lowestFault (faults : Nat → Bool) (base n : Nat) : Option Nat :=
  ((List.range n).map fun k => base + k).find? faults

/-- The `n` bytes from `base` on, ascending. -/
def State.bytesFrom (s : State) (base n : Nat) : List Byte := (List.range n).map fun k => s.byteAt (base + k)

/-- The bytes written at `base`, `base + 1`, ... (R58). -/
def State.putBytes (s : State) (base : Nat) : List Byte → State
  | [] => s
  | b :: rest => (s.putByte base b).putBytes (base + 1) rest

/-- `Fetch16(pc)` (R56) once its addresses are checked: big-endian (R58). -/
def State.fetchWord (s : State) : Word := wordOfBytes (s.byteAt s.pc.toNat) (s.byteAt (s.pc.toNat + 1))

/-! ## Register blocks (R203, R204) -/

/-- V0..Vx as a list. -/
def State.regsUpTo (s : State) (x : Nibble) : List Byte :=
  (List.range (x.toNat + 1)).map fun k => s.getV (BitVec.ofNat 4 k)

/-- The bytes loaded into V[k], V[k + 1], .... -/
def State.loadRegs (s : State) (k : Nat) : List Byte → State
  | [] => s
  | b :: rest => (s.setV (BitVec.ofNat 4 k) b).loadRegs (k + 1) rest

/-! ## Skips (R118) -/

/-- R118: a taken skip adds 2 to the pc the fetch has advanced. -/
def State.skipIf (s : State) (c : Bool) : State := if c then s.setPc (s.pc + 2) else s

/-! ## Error entry (R222) -/

/-- R222: error entry. Nothing changes but `mode <- Halted(f)`; `step()` returns `Err(f)`, read off by `State.result`. -/
def State.raise (s : State) (f : FaultRecord) : State := s.setMode (.halted f)

/-- The address A of the executing instruction: pc is A + 2 (R92). -/
def State.insnAddr (s : State) : Word := s.pc - 2

/-- An error the instruction `i` raises: the record holds A and the instruction's word (R32, assumption 5). -/
def State.raiseIn (s : State) (i : Instr) (kind : ErrorKind) (detail : Detail) : State :=
  s.raise { kind := kind, addr := s.insnAddr, word := some (encode i), detail := detail }

/-- What a call of `step()` or `advance` that left this state returned to the host: `Ok` or `Err(f)` (R222, R226). -/
def State.result (s : State) : Except FaultRecord Unit :=
  match s.mode with
  | .halted f => .error f
  | _ => .ok ()

/-- The mode is Halted. -/
def State.isHalted (s : State) : Bool :=
  match s.mode with
  | .halted _ => true
  | _ => false

/-- R220: the numeric codes, the spec's own. -/
def ErrorKind.code : ErrorKind → Nat
  | .invalidOpcode => 1
  | .stackOverflow => 2
  | .stackUnderflow => 3
  | .addressFault => 4
  | .operandFault => 5

/-! ## The framebuffer unit (R160, spec/60_exceptions.md R234) -/

/-- R160: the pixel at any natural coordinate. -/
def Framebuffer.pixel (f : Framebuffer) (x y : Nat) : Bool :=
  (f[y % 32]'(Nat.mod_lt _ (by decide)))[x % 64]'(Nat.mod_lt _ (by decide))

/-- R160: the pixel at any natural coordinate set. -/
def Framebuffer.setPixel (f : Framebuffer) (x y : Nat) (b : Bool) : Framebuffer :=
  f.set (y % 32) ((f[y % 32]'(Nat.mod_lt _ (by decide))).set (x % 64) b (Nat.mod_lt _ (by decide)))
    (Nat.mod_lt _ (by decide))

/-- `clear()` (R234): every pixel off. -/
def Framebuffer.clear : Framebuffer := Vector.replicate 32 (Vector.replicate 64 false)

/-- R162: one sprite bit over one pixel: a 1 toggles the pixel, and a pixel that was on is a collision. -/
def Framebuffer.xorPixel (acc : Framebuffer × Bool) (x y : Nat) (b : Bool) : Framebuffer × Bool :=
  if b then
    (Framebuffer.setPixel acc.1 x y (!Framebuffer.pixel acc.1 x y), acc.2 || Framebuffer.pixel acc.1 x y)
  else acc

/-- R162, R163: one sprite byte, bit 7 at column offset 0. -/
def Framebuffer.xorRow (acc : Framebuffer × Bool) (x y : Nat) (b : Byte) : Framebuffer × Bool :=
  (List.range 8).foldl (fun a c => Framebuffer.xorPixel a (x + c) y (b.getLsbD (7 - c))) acc

/-- R162: the sprite's rows, one below the other. -/
def Framebuffer.xorRows (acc : Framebuffer × Bool) (x y : Nat) : List Byte → Framebuffer × Bool
  | [] => acc
  | b :: rest => Framebuffer.xorRows (Framebuffer.xorRow acc x y b) x (y + 1) rest

/-- `draw_sprite(x, y, bytes) -> bool` (R234): the framebuffer after the draw, and whether a pixel went from on to off. -/
def Framebuffer.drawSprite (f : Framebuffer) (x y : Nat) (bytes : List Byte) : Framebuffer × Bool :=
  Framebuffer.xorRows (f, false) x y bytes

/-! ## The input unit (spec/60_exceptions.md R235) -/

/-- `is_pressed(k)` (R235). -/
def State.isPressed (s : State) (k : Nibble) : Bool := s.keys[k.toNat]'k.isLt

/-- `poll_newly_pressed()` (R235): returns and clears the latch. -/
def State.pollNewlyPressed (s : State) : Option Nibble × State := (s.latch, s.setLatch none)

end Sys2Proof.Machine
end

