-- ==== Sys2Proof/Machine/Operands.lean ====
section
/-!
DEFINITION. Operand forms (spec/30_encoding.md R83) and the values instructions compute from them: zero-extension, the
shift source (spec/42_alu.md R139), a key id or hex digit, a glyph's address (spec/43_display.md R165), BCD digits
(spec/45_index_memory.md R202), the index after a block transfer (R205).
-/

namespace Sys2Proof.Machine

/-- `zext_16(nnn)` (R83). -/
def zextAddr (nnn : Addr12) : Word := nnn.setWidth 16

/-- `zext_16(b)` (R8). -/
def zextByte (b : Byte) : Word := b.setWidth 16

/-- R139, R141: the value 8xy6 and 8xyE shift. -/
def State.shiftOperand (s : State) (x y : Nibble) : Byte :=
  match s.config.shiftSource with
  | .vx => s.getV x
  | .vy => s.getV y

/-- A register's value as a key id or hex digit, or nothing where it is above 0x0F (R165, R180, R181). -/
def asDigit (b : Byte) : Option Nibble := if b.toNat ≤ 0xF then some (b.setWidth 4) else none

/-- R165: the address of a hex digit's glyph, FONT_BASE 0x000 + 5·d (spec/20_memory.md R52). -/
def glyphAddr (d : Nibble) : Word := BitVec.ofNat 16 (5 * d.toNat)

/-- R202: the hundreds, tens and ones of a byte. -/
def bcdDigits (b : Byte) : List Byte :=
  [BitVec.ofNat 8 (b.toNat / 100), BitVec.ofNat 8 (b.toNat / 10 % 10), BitVec.ofNat 8 (b.toNat % 10)]

/-- R205: `index_after(I, x)`. -/
def State.indexAfter (s : State) (x : Nibble) : Word :=
  match s.config.loadStoreI with
  | .unchanged => s.i
  | .plusXPlus1 => s.i + x.setWidth 16 + 1
  | .plusX => s.i + x.setWidth 16

/-- The number of registers V0..Vx (R203, R204). -/
def blockSize (x : Nibble) : Nat := x.toNat + 1

end Sys2Proof.Machine
end

