-- ==== Sys2Proof/Machine/Flags.lean ====
section
/-!
DEFINITION. The flag computations (spec/10_state.md R34) and the write of a result and a flag (spec/42_alu.md R130 law 3):
VF is the only flag, and it is written after the result (R21).
-/

namespace Sys2Proof.Machine

/-- The flag register VF (R21). -/
def vf : Nibble := 0xF

/-- A flag's value as VF holds it: 1 or 0 (R34). -/
def flagByte (c : Bool) : Byte := if c then 1 else 0

/-- R137: the sum exceeds 255. -/
def carry (a b : Byte) : Bool := decide (255 < a.toNat + b.toNat)

/-- R138, R140: `a - b` borrows nothing. -/
def noBorrow (a b : Byte) : Bool := decide (b.toNat ≤ a.toNat)

/-- R139: the bit a right shift moves out. -/
def lowBit (a : Byte) : Bool := a.getLsbD 0

/-- R141: the bit a left shift moves out. -/
def highBit (a : Byte) : Bool := a.getLsbD 7

/-- R34: VF written as a flag. -/
def State.setFlag (s : State) (c : Bool) : State := s.setV vf (flagByte c)

/-- R130 law 3: the result is written first and the flag second. -/
def State.writeWithFlag (s : State) (x : Nibble) (result : Byte) (flag : Bool) : State :=
  (s.setV x result).setFlag flag

end Sys2Proof.Machine
end

