-- ==== Sys2Proof/Machine/Cycle.lean ====
section
/-!
DEFINITION. What a step does around `exec` (spec/30_encoding.md R91): the halted step, the waiting step
(spec/44_input_timer.md R183), the fetch with its check, the pc's advance, and what an invalid word does. Also the load of
one instruction where the next fetch finds it (assumption 7).
-/

namespace Sys2Proof.Machine

/-- How a step begins: it has an instruction to execute, or it is already over. -/
inductive StepStart where
  /-- execute `i` in `s`, whose pc the fetch has advanced -/
  | run (i : Instr) (s : State)
  /-- the step ends in `s` with no instruction executed -/
  | over (s : State)
  deriving DecidableEq, Repr

/-- R183: the waiting step. It does not fetch; a latched key ends the wait. -/
def State.waitStep (s : State) (x : Nibble) : State :=
  match s.pollNewlyPressed with
  | (none, _) => s
  | (some k, s') => (s'.setV x (k.setWidth 8)).setMode .running

/-- R91, R222: a fetch fault. pc is unchanged and the record has no word. -/
def State.raiseFetch (s : State) (a : Nat) : State :=
  s.raise { kind := .addressFault, addr := s.pc, word := none, detail := .access a .fetch }

/-- R91: an invalid word, in the state whose pc the fetch has advanced. SKIP does nothing more. -/
def State.invalidWord (s : State) (w : Word) : State :=
  match s.config.invalidOpcodePolicy with
  | .halt => s.raise { kind := .invalidOpcode, addr := s.insnAddr, word := some w, detail := .none }
  | .skip => s

/-- R91: the fetch and decode of a step in mode Running. -/
def State.fetchDecode (s : State) : StepStart :=
  match lowestFault readFaults s.pc.toNat 2 with
  | some a => .over (s.raiseFetch a)
  | none =>
    match decodeWord s.fetchWord with
    | some i => .run i (s.setPc (s.pc + 2))
    | none => .over ((s.setPc (s.pc + 2)).invalidWord s.fetchWord)

/-- R91: the cases of the mode. In Halted nothing changes (spec/60_exceptions.md R226). -/
def State.startStep (s : State) : StepStart :=
  match s.mode with
  | .halted _ => .over s
  | .waitingForKey x => .over (s.waitStep x)
  | .running => s.fetchDecode

/-- The state with a word stored where the next step fetches it: mode Running, and pc kept where a fetch at pc can
succeed, else the entry point 0x200 (R271). The store is the loader's, not a program's, so no region is checked. -/
def State.placeWord (s : State) (w : Word) : State :=
  let pc : Word := if s.pc.toNat ≤ 0xFFE then s.pc else 0x200
  ((s.setMode .running).setPc pc).putBytes pc.toNat (bytesOfWord w)

end Sys2Proof.Machine
end

