-- ==== Sys2Proof/Machine/Alu.lean ====
section
/-!
DEFINITION. Arithmetic and logic (spec/42_alu.md R130 to R142). Results wrap modulo 256; every source is read before any
register is written; only 8xy4 to 8xy7 and 8xyE write VF as a flag, after the result.
-/

namespace Sys2Proof.Machine

/-- LD Vx, byte, R131. -/
def execLdImm (x : Nibble) (kk : Byte) (s : State) : Host.Outcome State Fault Refusal := .next (s.setV x kk)

/-- ADD Vx, byte, R132: no flag. -/
def execAddImm (x : Nibble) (kk : Byte) (s : State) : Host.Outcome State Fault Refusal :=
  .next (s.setV x (s.getV x + kk))

/-- LD Vx, Vy, R133. -/
def execLdReg (x y : Nibble) (s : State) : Host.Outcome State Fault Refusal := .next (s.setV x (s.getV y))

/-- OR Vx, Vy, R134. -/
def execOr (x y : Nibble) (s : State) : Host.Outcome State Fault Refusal :=
  .next (s.setV x (s.getV x ||| s.getV y))

/-- AND Vx, Vy, R135. -/
def execAnd (x y : Nibble) (s : State) : Host.Outcome State Fault Refusal :=
  .next (s.setV x (s.getV x &&& s.getV y))

/-- XOR Vx, Vy, R136. -/
def execXor (x y : Nibble) (s : State) : Host.Outcome State Fault Refusal :=
  .next (s.setV x (s.getV x ^^^ s.getV y))

/-- ADD Vx, Vy, R137. -/
def execAddReg (x y : Nibble) (s : State) : Host.Outcome State Fault Refusal :=
  .next (s.writeWithFlag x (s.getV x + s.getV y) (carry (s.getV x) (s.getV y)))

/-- SUB Vx, Vy, R138. -/
def execSub (x y : Nibble) (s : State) : Host.Outcome State Fault Refusal :=
  .next (s.writeWithFlag x (s.getV x - s.getV y) (noBorrow (s.getV x) (s.getV y)))

/-- SHR Vx, Vy, R139. -/
def execShr (x y : Nibble) (s : State) : Host.Outcome State Fault Refusal :=
  .next (s.writeWithFlag x (s.shiftOperand x y >>> 1) (lowBit (s.shiftOperand x y)))

/-- SUBN Vx, Vy, R140. -/
def execSubn (x y : Nibble) (s : State) : Host.Outcome State Fault Refusal :=
  .next (s.writeWithFlag x (s.getV y - s.getV x) (noBorrow (s.getV y) (s.getV x)))

/-- SHL Vx, Vy, R141. -/
def execShl (x y : Nibble) (s : State) : Host.Outcome State Fault Refusal :=
  .next (s.writeWithFlag x (s.shiftOperand x y <<< 1) (highBit (s.shiftOperand x y)))

/-- RND Vx, byte, R142: one draw, whatever the mask is. -/
def execRnd (x : Nibble) (kk : Byte) (s : State) : Host.Outcome State Fault Refusal :=
  .next (s.rngAdvance.setV x (s.rngNext &&& kk))

end Sys2Proof.Machine
end

