-- ==== Sys2Proof/Machine/Display.lean ====
section
/-!
DEFINITION. The display instructions (spec/43_display.md R160 to R166): CLS, DRW, LD F.
-/

namespace Sys2Proof.Machine

/-- CLS, R161. -/
def execCls (s : State) : Host.Outcome State Fault Refusal := .next (s.setFb Framebuffer.clear)

/-- R162 once the sprite's addresses are checked: the sprite at `I` drawn at (V[x], V[y]), VF the collision flag. -/
def State.drawAt (s : State) (x y n : Nibble) : State :=
  let d := Framebuffer.drawSprite s.fb (s.getV x).toNat (s.getV y).toNat (s.bytesFrom s.i.toNat n.toNat)
  (s.setFb d.1).setFlag d.2

/-- DRW Vx, Vy, nibble, R162. -/
def execDrw (x y n : Nibble) (s : State) : Host.Outcome State Fault Refusal :=
  match lowestFault readFaults s.i.toNat n.toNat with
  | some a => .next (s.raiseIn (.drw x y n) .addressFault (.access a .read))
  | none => .next (s.drawAt x y n)

/-- LD F, Vx, R165. -/
def execLdFVx (x : Nibble) (s : State) : Host.Outcome State Fault Refusal :=
  match asDigit (s.getV x) with
  | none => .next (s.raiseIn (.ldFVx x) .operandFault (.operand (s.getV x)))
  | some d => .next (s.setI (glyphAddr d))

end Sys2Proof.Machine
end

