-- ==== Sys2Proof/Machine/Index.lean ====
section
/-!
DEFINITION. The index register and memory transfer (spec/45_index_memory.md R200 to R205). Addresses are naturals; one
above 0xFFF faults (spec/20_memory.md R56), and every address is checked before anything is accessed (R57).
-/

namespace Sys2Proof.Machine

/-- LD I, addr, R200. -/
def execLdI (nnn : Addr12) (s : State) : Host.Outcome State Fault Refusal := .next (s.setI (zextAddr nnn))

/-- ADD I, Vx, R201: wraps at 16 bits, no flag. -/
def execAddIVx (x : Nibble) (s : State) : Host.Outcome State Fault Refusal :=
  .next (s.setI (s.i + zextByte (s.getV x)))

/-- LD B, Vx, R202. -/
def execLdBVx (x : Nibble) (s : State) : Host.Outcome State Fault Refusal :=
  match lowestFault writeFaults s.i.toNat 3 with
  | some a => .next (s.raiseIn (.ldBVx x) .addressFault (.access a .write))
  | none => .next (s.putBytes s.i.toNat (bcdDigits (s.getV x)))

/-- LD [I], Vx, R203. -/
def execLdMemVx (x : Nibble) (s : State) : Host.Outcome State Fault Refusal :=
  match lowestFault writeFaults s.i.toNat (blockSize x) with
  | some a => .next (s.raiseIn (.ldMemVx x) .addressFault (.access a .write))
  | none => .next ((s.putBytes s.i.toNat (s.regsUpTo x)).setI (s.indexAfter x))

/-- LD Vx, [I], R204. -/
def execLdVxMem (x : Nibble) (s : State) : Host.Outcome State Fault Refusal :=
  match lowestFault readFaults s.i.toNat (blockSize x) with
  | some a => .next (s.raiseIn (.ldVxMem x) .addressFault (.access a .read))
  | none => .next ((s.loadRegs 0 (s.bytesFrom s.i.toNat (blockSize x))).setI (s.indexAfter x))

end Sys2Proof.Machine
end

