-- ==== Sys2Proof/Machine/Input.lean ====
section
/-!
DEFINITION. The key and timer instructions (spec/44_input_timer.md R180 to R186).
-/

namespace Sys2Proof.Machine

/-- SKP Vx, R180. -/
def execSkp (x : Nibble) (s : State) : Host.Outcome State Fault Refusal :=
  match asDigit (s.getV x) with
  | none => .next (s.raiseIn (.skp x) .operandFault (.operand (s.getV x)))
  | some k => .next (s.skipIf (s.isPressed k))

/-- SKNP Vx, R181. -/
def execSknp (x : Nibble) (s : State) : Host.Outcome State Fault Refusal :=
  match asDigit (s.getV x) with
  | none => .next (s.raiseIn (.sknp x) .operandFault (.operand (s.getV x)))
  | some k => .next (s.skipIf (!s.isPressed k))

/-- LD Vx, K, R182: the wait begins now; later steps run `State.waitStep`. -/
def execLdVxK (x : Nibble) (s : State) : Host.Outcome State Fault Refusal :=
  .next ((s.setLatch none).setMode (.waitingForKey x))

/-- LD Vx, DT, R184. -/
def execLdVxDt (x : Nibble) (s : State) : Host.Outcome State Fault Refusal := .next (s.setV x s.dt)

/-- LD DT, Vx, R185. -/
def execLdDtVx (x : Nibble) (s : State) : Host.Outcome State Fault Refusal := .next (s.setDt (s.getV x))

/-- LD ST, Vx, R186. -/
def execLdStVx (x : Nibble) (s : State) : Host.Outcome State Fault Refusal := .next (s.setSt (s.getV x))

end Sys2Proof.Machine
end

