-- ==== Sys2Proof/Machine/Step.lean ====
section
/-!
DEFINITION. `step()` of spec/30_encoding.md R91.
-/

namespace Sys2Proof.Machine

/-- R91: one step. -/
def step (s : State) : Host.Outcome State Fault Refusal :=
  match s.startStep with
  | .over s' => .next s'
  | .run i s' => exec i s'

/-- `s` with the table's instruction stored where the next step fetches it (assumption 7). -/
def State.withFetchWord (s : State) (nbits w : Nat) : State := s.placeWord (tableWord nbits w)

end Sys2Proof.Machine
end

