-- ==== Sys2Proof/Machine/Timer.lean ====
section
/-!
DEFINITION. The timer unit (spec/60_exceptions.md R230 to R233) and the input unit as the host drives it (R235, R236).
-/

namespace Sys2Proof.Machine

/-- R230: a nonzero timer falls by 1, a zero one stays. -/
def countDown (b : Byte) : Byte := if 0 < b.toNat then b - 1 else b

/-- R230: `tick_timers()`. -/
def State.tickTimers (s : State) : State :=
  if s.isHalted then s else (s.setDt (countDown s.dt)).setSt (countDown s.st)

/-- R232: the sound signal. -/
def State.soundOn (s : State) : Bool := s.st != 0

/-- R236: a press is latched when the key goes from released to pressed while the core waits and nothing is latched. -/
def State.latches (s : State) (k : Nibble) (b : Bool) : Bool :=
  match s.mode with
  | .waitingForKey _ => b && !s.isPressed k && s.latch.isNone
  | _ => false

/-- R236: `set_pressed(k, b)`. -/
def State.setPressed (s : State) (k : Nibble) (b : Bool) : State :=
  (if s.latches k b then s.setLatch (some k) else s).setKeys (s.keys.set k.toNat b k.isLt)

/-- R235: `clear_keys()`; the latch is unchanged. -/
def State.clearKeys (s : State) : State := s.setKeys (Vector.replicate 16 false)

/-- R234: `snapshot()`. -/
def State.snapshot (s : State) : Framebuffer := s.fb

/-- R233, R241: the timer values the host reads. -/
def State.timerValues (s : State) : Byte × Byte := (s.dt, s.st)

end Sys2Proof.Machine
end

