-- ==== Sys2Proof/Machine/Advance.lean ====
section
/-!
DEFINITION. The `advance` scheduler (spec/60_exceptions.md R238, R239), `initialize` (spec/70_reset_and_hazards.md R270)
and the host's operations (R241) as one type, performed in the order the host calls them (R243 form (a), assumption 3).
-/

namespace Sys2Proof.Machine

/-- Nanoseconds in a second (R239). -/
def nsPerSecond : Nat := 1000000000

/-- R239: `cpu_due`. -/
def State.cpuDue (s : State) : Bool := decide ((s.cpuDone + 1) * nsPerSecond ≤ s.tNs * s.config.cpuHz)

/-- R239: `tmr_due`. -/
def State.tmrDue (s : State) : Bool := decide ((s.tmrDone + 1) * nsPerSecond ≤ s.tNs * timerHz)

/-- R239: the tick goes first when it is due no later than the next step; a tie is the tick's. -/
def State.tickFirst (s : State) : Bool :=
  s.tmrDue && (!s.cpuDue || decide ((s.tmrDone + 1) * s.config.cpuHz ≤ (s.cpuDone + 1) * timerHz))

/-- R239: a tick and its count. -/
def State.runTick (s : State) : State := { s.tickTimers with tmrDone := s.tmrDone + 1 }

/-- R239: the count of a step about to be taken. -/
def State.countStep (s : State) : State := { s with cpuDone := s.cpuDone + 1 }

/-- R239: the loop. It ends when nothing is due or a step has returned an error. `fuel` bounds the events taken; the
bound `advance` gives is the number of events due (assumption 8). -/
def advanceLoop : Nat → State → Host.Outcome State Fault Refusal
  | 0, s => .next s
  | fuel + 1, s =>
    if !s.cpuDue && !s.tmrDue then .next s
    else if s.tickFirst then advanceLoop fuel s.runTick
    else
      match step s.countStep with
      | .next s' => if s'.isHalted then .next s' else advanceLoop fuel s'
      | .fault r => .fault r
      | .refused r => .refused r

/-- The number of steps and ticks due at the elapsed time and not yet taken. -/
def State.eventsDue (s : State) : Nat :=
  (s.tNs * s.config.cpuHz / nsPerSecond - s.cpuDone) + (s.tNs * timerHz / nsPerSecond - s.tmrDone)

/-- The elapsed time with `ns` more nanoseconds (R239). -/
def State.addTime (s : State) (ns : Nat) : State := { s with tNs := s.tNs + ns }

/-- R239: `advance(elapsed_ns)`. In Halted nothing changes, not even the scheduler (R226). What it returns to the host is
the state's `result`. -/
def advance (ns : Nat) (s : State) : Host.Outcome State Fault Refusal :=
  if s.isHalted then .next s else advanceLoop (s.addTime ns).eventsDue (s.addTime ns)

/-- R220, R270: `LoadError`, code 0, with the program's length. No core exists after it. -/
structure LoadError where
  length : Nat
  deriving DecidableEq, Repr

/-- R220: LoadError's code. -/
def loadErrorCode : Nat := 0

/-- R270: `initialize(program_bytes)` for a session's parameters (R273): a core with the program at 0x200, or LoadError. -/
def initialised (c : Config) (program : List Byte) : Except LoadError State :=
  if programWellFormed program then .ok ((State.powerOn c).putBytes progBase program)
  else .error ⟨program.length⟩

/-- R241: the operations the host performs on a core that exists. (`initialize` makes one: `initialised`. A reset is a new
`initialize`, R272.) -/
inductive HostOp where
  | advance (ns : Nat)
  | step
  | tickTimers
  | setPressed (k : Nibble) (b : Bool)
  | clearKeys
  deriving DecidableEq, Repr

/-- R241: one operation. -/
def perform (op : HostOp) (s : State) : Host.Outcome State Fault Refusal :=
  match op with
  | .advance ns => Sys2Proof.Machine.advance ns s
  | .step => Sys2Proof.Machine.step s
  | .tickTimers => .next s.tickTimers
  | .setPressed k b => .next (s.setPressed k b)
  | .clearKeys => .next s.clearKeys

/-- R243: the host's operations, each run to completion before the next begins. -/
def performAll : List HostOp → State → Host.Outcome State Fault Refusal
  | [], s => .next s
  | op :: rest, s =>
    match perform op s with
    | .next s' => performAll rest s'
    | .fault r => .fault r
    | .refused r => .refused r

end Sys2Proof.Machine
end

