-- ==== Sys2Proof/Safety.lean ====
section
/-!
DEFINITION. The terms claims are stated in: what a frame leaves alone, what a sprite covers, which fault records the error
taxonomy allows (spec/60_exceptions.md R220, R221), and the invariant of the machine. A safe state is one in mode Running
or WaitingForKey: the block's every error ends in Halted (R222).
-/

namespace Sys2Proof.Machine

/-- Every byte of memory reads in `t` as it did in `s`. -/
def State.sameBytes (s t : State) : Prop := ∀ a : Nat, t.byteAt a = s.byteAt a

/-- Every byte of memory outside the `n` bytes from `base` on reads in `t` as it did in `s`. -/
def State.sameBytesOutside (s t : State) (base n : Nat) : Prop :=
  ∀ a : Nat, a < base ∨ base + n ≤ a → t.byteAt a = s.byteAt a

/-- Every register but `x` reads in `t` as it did in `s`. -/
def State.sameVExcept (s t : State) (x : Nibble) : Prop := ∀ r : Nibble, r ≠ x → t.getV r = s.getV r

/-- Every register but `x` and VF reads in `t` as it did in `s`. -/
def State.sameVExceptWithFlag (s t : State) (x : Nibble) : Prop :=
  ∀ r : Nibble, r ≠ x → r ≠ 0xF → t.getV r = s.getV r

/-- The safe states: no error has been raised. -/
def State.live (s : State) : Prop := ∀ f, s.mode ≠ .halted f

/-- R222: `s` after error entry with a record of these parts: the mode alone changes. -/
def State.afterError (s : State) (kind : ErrorKind) (addr : Word) (word : Option Word) (detail : Detail) : State :=
  { s with mode := .halted { kind := kind, addr := addr, word := word, detail := detail } }

/-- R162, R163: the sprite of n rows at `I`, drawn at (V[x], V[y]), has a 1 bit over the pixel in column `c`, row `r`. -/
def State.spriteCovers (s : State) (x y n : Nibble) (c r : Nat) : Prop :=
  ∃ j k : Nat, j < n.toNat ∧ k < 8 ∧ ((s.getV x).toNat + k) % 64 = c ∧ ((s.getV y).toNat + j) % 32 = r ∧
    (s.byteAt (s.i.toNat + j)).getLsbD (7 - k) = true

/-- R220, R221, R32: a record some step can raise. Each kind has its own detail, only a fetch fault has no word, and the
word is of an instruction that can raise the kind. -/
def FaultRecord.ok (f : FaultRecord) : Prop :=
  match f.kind, f.word, f.detail with
  | .invalidOpcode, some w, .none => decodeWord w = none
  | .stackOverflow, some w, .none => ∃ nnn, decodeWord w = some (.call nnn)
  | .stackUnderflow, some w, .none => w = 0x00EE
  | .addressFault, none, .access a .fetch => 0xFFF < a ∧ (a = f.addr.toNat ∨ a = f.addr.toNat + 1)
  | .addressFault, some w, .access a .read =>
    0xFFF < a ∧ ((∃ x y n, decodeWord w = some (.drw x y n)) ∨ ∃ x, decodeWord w = some (.ldVxMem x))
  | .addressFault, some w, .access a .write =>
    (0xFFF < a ∨ a ≤ 0x04F) ∧ ∃ x, decodeWord w = some (.ldBVx x) ∨ decodeWord w = some (.ldMemVx x)
  | .operandFault, some w, .operand v =>
    0x0F < v.toNat ∧
      ∃ x, decodeWord w = some (.skp x) ∨ decodeWord w = some (.sknp x) ∨ decodeWord w = some (.ldFVx x)
  | _, _, _ => False

/-- Memory is in its canonical form and the font region holds FONT (spec/20_memory.md R51, R54). -/
def State.memoryInv (s : State) : Prop :=
  Memory.wf s.config s.mem = true ∧ ∀ (a : Nat) (h : a < 80), s.byteAt a = s.config.font[a]

/-- R23: pc is at most 0x10FE, and every entry in use a return address of at most 0x1000. -/
def State.pcInv (s : State) : Prop :=
  s.pc.toNat ≤ 0x10FE ∧ ∀ (k : Nat) (h : k < 16), k < s.sp.val → s.stack[k].toNat ≤ 0x1000

/-- R30, R31, R32: a latched key only while the core waits, and only records of the taxonomy. -/
def State.modeInv (s : State) : Prop :=
  match s.mode with
  | .running => s.latch = none
  | .waitingForKey _ => True
  | .halted f => s.latch = none ∧ f.ok

/-- R239: no more steps and ticks have been issued than were due at the elapsed time. -/
def State.schedInv (s : State) : Prop :=
  s.cpuDone * 1000000000 ≤ s.tNs * s.config.cpuHz ∧ s.tmrDone * 1000000000 ≤ s.tNs * 60

/-- The invariant of the machine. -/
structure State.Inv (s : State) : Prop where
  config : s.config.wellFormed = true
  memory : s.memoryInv
  pc : s.pcInv
  mode : s.modeInv
  sched : s.schedInv

end Sys2Proof.Machine
end

