-- ==== Sys2Proof/Certificates/Slice0/Obligations.lean ====
section
/-!
DEFINITION. The statements for the provers, from the spec's numbered rules. An instruction's statement gives its encoding
(the word written from its rule's match and fields), its effect as a next state of `exec`, and its frame (the state after is
the state before but for the fields named, and every byte of memory outside the stored ones reads as before). On entry pc
is A + 2, so A is pc - 2 (spec/30_encoding.md R92).
-/

open Sys2Proof Sys2Proof.Machine

/-! ## The step -/

/-- R91, R92: in mode Running, when the two bytes at pc decode to an instruction, the step is that instruction's meaning in
the state whose pc is advanced by 2. -/
def Obligations.StepRunsTheDecodedInstruction : Prop :=
  ∀ (s : State) (i : Instr), s.mode = .running → s.pc.toNat ≤ 0xFFE →
    decodeWord (BitVec.ofNat 16 (0x100 * (s.byteAt s.pc.toNat).toNat + (s.byteAt (s.pc.toNat + 1)).toNat)) = some i →
    step s = exec i { s with pc := s.pc + 2 }

/-- R91: the step, case by case. Halted: nothing changes and the stored record is returned. Waiting: the waiting step.
Running: a fetch above 0xFFE raises AddressFault(fetch) with pc unchanged; else pc becomes A + 2, and an invalid word
raises InvalidOpcode under HALT and does nothing more under SKIP, and any other word is executed. -/
def Obligations.StepFollowsTheCycle : Prop :=
  ∀ (s : State) (w : Word),
    w = BitVec.ofNat 16 (0x100 * (s.byteAt s.pc.toNat).toNat + (s.byteAt (s.pc.toNat + 1)).toNat) →
    (∀ f, s.mode = .halted f → step s = .next s ∧ s.result = .error f) ∧
    (∀ x, s.mode = .waitingForKey x → step s = .next (s.waitStep x)) ∧
    (s.mode = .running → 0xFFE < s.pc.toNat →
      step s = .next (s.afterError .addressFault s.pc none
        (.access (if s.pc.toNat = 0xFFF then 0x1000 else s.pc.toNat) .fetch))) ∧
    (s.mode = .running → s.pc.toNat ≤ 0xFFE → decodeWord w = none →
      step s = .next (match s.config.invalidOpcodePolicy with
        | .halt => State.afterError { s with pc := s.pc + 2 } .invalidOpcode s.pc (some w) .none
        | .skip => { s with pc := s.pc + 2 })) ∧
    ∀ i, s.mode = .running → s.pc.toNat ≤ 0xFFE → decodeWord w = some i →
      step s = exec i { s with pc := s.pc + 2 }

/-- R183: the waiting step changes nothing without a latched key; with one it writes the key to V[x], clears the latch and
returns to Running, and pc stays. -/
def Obligations.WaitingStepConsumesTheLatch : Prop :=
  ∀ (s : State) (x : Nibble), s.mode = .waitingForKey x →
    (s.latch = none → step s = .next s) ∧
    ∀ k : Nibble, s.latch = some k → ∃ t, step s = .next t ∧
      (t.getV x).toNat = k.toNat ∧ s.sameVExcept t x ∧ t.latch = none ∧ t.mode = .running ∧
      t = { s with v := t.v, latch := t.latch, mode := t.mode } ∧ s.sameBytes t

/-- R226: in Halted a step, a tick and an advance change nothing and return the stored record; host input still updates the
keys alone. -/
def Obligations.HaltedIsTerminal : Prop :=
  ∀ (s : State) (f : FaultRecord), s.mode = .halted f →
    step s = .next s ∧ s.tickTimers = s ∧ (∀ ns, advance ns s = .next s) ∧ s.result = .error f ∧
    (∀ k b, (s.setPressed k b) = { s with keys := (s.setPressed k b).keys } ∧ (s.setPressed k b).isPressed k = b) ∧
    s.clearKeys = { s with keys := s.clearKeys.keys } ∧ ∀ k, s.clearKeys.isPressed k = false

/-- Derived from R91, R221, R222: every instruction, every step and every advance of the model answers a next state. -/
def Obligations.EveryOperationAnswersANextState : Prop :=
  (∀ (i : Instr) (s : State), ∃ t, exec i s = .next t) ∧ (∀ s : State, ∃ t, step s = .next t) ∧
  ∀ (ops : List HostOp) (s : State), ∃ t, performAll ops s = .next t

/-- R223, R222, R32: a step that enters Halted changes nothing but the mode and the fetch's pc advance: none for a fetch
fault, whose record has no word, else pc + 2, with the fetched word. The record's address is the pc before the step, and
the step returns the record. -/
def Obligations.ErrorsArePrecise : Prop :=
  ∀ (s t : State) (f : FaultRecord), s.mode = .running → step s = .next t → t.mode = .halted f →
    t = { s with pc := t.pc, mode := .halted f } ∧ f.addr = s.pc ∧ t.result = .error f ∧
    ((f.word = none ∧ t.pc = s.pc) ∨ (f.word = some s.fetchWord ∧ t.pc = s.pc + 2))

/-! ## Encoding -/

/-- R84, R82: the decoder reads every instruction back from its word. -/
def Obligations.DecodeOfEncodeIsTheInstruction : Prop := ∀ i : Instr, decodeWord (encode i) = some i

/-- R84: no two words decode to one instruction: the word an instruction was decoded from is its encoding. -/
def Obligations.EncodeOfDecodeIsTheWord : Prop := ∀ (w : Word) (i : Instr), decodeWord w = some i → encode i = w

/-- R86: the invalid words, family by family. -/
def Obligations.InvalidWordsAreThoseOfTheSpec : Prop :=
  ∀ w : Word, decodeWord w = none ↔
    (w.toNat / 0x1000 = 0x0 ∧ w ≠ 0x00E0 ∧ w ≠ 0x00EE) ∨
    ((w.toNat / 0x1000 = 0x5 ∨ w.toNat / 0x1000 = 0x9) ∧ w.toNat % 0x10 ≠ 0) ∨
    (w.toNat / 0x1000 = 0x8 ∧ 8 ≤ w.toNat % 0x10 ∧ w.toNat % 0x10 ≠ 0xE) ∨
    (w.toNat / 0x1000 = 0xE ∧ w.toNat % 0x100 ∉ [0x9E, 0xA1]) ∨
    (w.toNat / 0x1000 = 0xF ∧ w.toNat % 0x100 ∉ [0x07, 0x0A, 0x15, 0x18, 0x1E, 0x29, 0x33, 0x55, 0x65])

/-- R85: the decoder and the opcode table agree: a decoded word meets its instruction's match and mask, a word decodes
exactly when it meets some row, and no word meets two rows. -/
def Obligations.DecodeAgreesWithTheOpcodeTable : Prop :=
  (∀ (w : Word) (i : Instr), decodeWord w = some i → w &&& i.row.mask = i.row.pattern) ∧
  (∀ w : Word, (decodeWord w).isSome = wordWellFormed w) ∧
  ∀ (w : Word) (r q : OpcodeRow), r ∈ opcodeRows → q ∈ opcodeRows → w &&& r.mask = r.pattern →
    w &&& q.mask = q.pattern → r = q

/-- R84, R89: words written out from the spec's patterns decode to the instructions they stand for. -/
def Obligations.WordsOfTheSpecDecode : Prop :=
  decodeWord 0x00E0 = some .cls ∧ decodeWord 0x2210 = some (.call 0x210) ∧ decodeWord 0x8125 = some (.sub 1 2) ∧
  decodeWord 0xD015 = some (.drw 0 1 5) ∧ decodeWord 0xE59E = some (.skp 5) ∧ decodeWord 0xFA33 = some (.ldBVx 0xA) ∧
  decodeWord 0x5121 = none ∧ decodeWord 0x8008 = none ∧ decodeWord 0xF0FF = none ∧ decodeWord 0x0123 = none

/-! ## Control transfer -/

/-- R110: RET pops the entry below SP into pc and leaves the entry; with SP = 0 it raises StackUnderflow. -/
def Obligations.RetPopsThePc : Prop :=
  decodeWord 0x00EE = some .ret ∧ ∀ s : State,
    (0 < s.sp.val → ∃ t, exec .ret s = .next t ∧ t.sp.val + 1 = s.sp.val ∧ s.stack[t.sp.val]? = some t.pc ∧
      t = { s with sp := t.sp, pc := t.pc } ∧ s.sameBytes t) ∧
    (s.sp.val = 0 → exec .ret s = .next (s.afterError .stackUnderflow (s.pc - 2) (some 0x00EE) .none))

/-- R111: JP sets pc to nnn. -/
def Obligations.JpSetsThePc : Prop :=
  ∀ nnn : Addr12, decodeWord (BitVec.ofNat 16 (0x1000 + nnn.toNat)) = some (.jp nnn) ∧ ∀ s : State,
    ∃ t, exec (.jp nnn) s = .next t ∧ t.pc.toNat = nnn.toNat ∧ t = { s with pc := t.pc } ∧ s.sameBytes t

/-- R112: CALL pushes pc = A + 2 and sets pc to nnn; with SP = 16 it raises StackOverflow and writes nothing. -/
def Obligations.CallPushesThePc : Prop :=
  ∀ nnn : Addr12, decodeWord (BitVec.ofNat 16 (0x2000 + nnn.toNat)) = some (.call nnn) ∧ ∀ s : State,
    (s.sp.val < 16 → ∃ t, exec (.call nnn) s = .next t ∧ t.sp.val = s.sp.val + 1 ∧ t.pc.toNat = nnn.toNat ∧
      t.stack[s.sp.val]? = some s.pc ∧ (∀ k : Nat, k ≠ s.sp.val → t.stack[k]? = s.stack[k]?) ∧
      t = { s with stack := t.stack, sp := t.sp, pc := t.pc } ∧ s.sameBytes t) ∧
    (s.sp.val = 16 → exec (.call nnn) s =
        .next (s.afterError .stackOverflow (s.pc - 2) (some (BitVec.ofNat 16 (0x2000 + nnn.toNat))) .none))

/-- R113, R114: SE and SNE with a byte add 2 to pc when V[x] equals, or differs from, the byte. -/
def Obligations.SkipsOnAByteCompare : Prop :=
  ∀ (x : Nibble) (kk : Byte),
    decodeWord (BitVec.ofNat 16 (0x3000 + 0x100 * x.toNat + kk.toNat)) = some (.seImm x kk) ∧
    decodeWord (BitVec.ofNat 16 (0x4000 + 0x100 * x.toNat + kk.toNat)) = some (.sneImm x kk) ∧ ∀ s : State,
      (∃ t, exec (.seImm x kk) s = .next t ∧ t.pc = (if s.getV x = kk then s.pc + 2 else s.pc) ∧
        t = { s with pc := t.pc } ∧ s.sameBytes t) ∧
      ∃ t, exec (.sneImm x kk) s = .next t ∧ t.pc = (if s.getV x ≠ kk then s.pc + 2 else s.pc) ∧
        t = { s with pc := t.pc } ∧ s.sameBytes t

/-- R115, R116: SE and SNE with two registers add 2 to pc when they are equal, or differ; a word of either family with
another low nibble is invalid. -/
def Obligations.SkipsOnARegisterCompare : Prop :=
  ∀ x y : Nibble,
    decodeWord (BitVec.ofNat 16 (0x5000 + 0x100 * x.toNat + 0x10 * y.toNat)) = some (.seReg x y) ∧
    decodeWord (BitVec.ofNat 16 (0x9000 + 0x100 * x.toNat + 0x10 * y.toNat)) = some (.sneReg x y) ∧
    (∀ n : Nibble, n ≠ 0 →
      decodeWord (BitVec.ofNat 16 (0x5000 + 0x100 * x.toNat + 0x10 * y.toNat + n.toNat)) = none ∧
      decodeWord (BitVec.ofNat 16 (0x9000 + 0x100 * x.toNat + 0x10 * y.toNat + n.toNat)) = none) ∧
    ∀ s : State,
      (∃ t, exec (.seReg x y) s = .next t ∧ t.pc = (if s.getV x = s.getV y then s.pc + 2 else s.pc) ∧
        t = { s with pc := t.pc } ∧ s.sameBytes t) ∧
      ∃ t, exec (.sneReg x y) s = .next t ∧ t.pc = (if s.getV x ≠ s.getV y then s.pc + 2 else s.pc) ∧
        t = { s with pc := t.pc } ∧ s.sameBytes t

/-- R117: JP V0 sets pc to nnn + V0, a natural sum that is not reduced. -/
def Obligations.JpV0AddsV0 : Prop :=
  ∀ nnn : Addr12, decodeWord (BitVec.ofNat 16 (0xB000 + nnn.toNat)) = some (.jpV0 nnn) ∧ ∀ s : State,
    ∃ t, exec (.jpV0 nnn) s = .next t ∧ t.pc.toNat = nnn.toNat + (s.getV 0x0).toNat ∧
      t = { s with pc := t.pc } ∧ s.sameBytes t

/-! ## Arithmetic and logic -/

/-- R131, R132, R133: LD Vx, byte; ADD Vx, byte modulo 256 with no flag; LD Vx, Vy. The destination alone changes. -/
def Obligations.LoadAndAddImmediateWriteOneRegister : Prop :=
  ∀ (x y : Nibble) (kk : Byte),
    decodeWord (BitVec.ofNat 16 (0x6000 + 0x100 * x.toNat + kk.toNat)) = some (.ldImm x kk) ∧
    decodeWord (BitVec.ofNat 16 (0x7000 + 0x100 * x.toNat + kk.toNat)) = some (.addImm x kk) ∧
    decodeWord (BitVec.ofNat 16 (0x8000 + 0x100 * x.toNat + 0x10 * y.toNat)) = some (.ldReg x y) ∧ ∀ s : State,
      (∃ t, exec (.ldImm x kk) s = .next t ∧ t.getV x = kk ∧ s.sameVExcept t x ∧ t = { s with v := t.v } ∧
        s.sameBytes t) ∧
      (∃ t, exec (.addImm x kk) s = .next t ∧ (t.getV x).toNat = ((s.getV x).toNat + kk.toNat) % 256 ∧
        s.sameVExcept t x ∧ t = { s with v := t.v } ∧ s.sameBytes t) ∧
      ∃ t, exec (.ldReg x y) s = .next t ∧ t.getV x = s.getV y ∧ s.sameVExcept t x ∧ t = { s with v := t.v } ∧
        s.sameBytes t

/-- R134, R135, R136: OR, AND and XOR, bit by bit; VF is unchanged unless it is the destination. -/
def Obligations.LogicWritesOneRegister : Prop :=
  ∀ x y : Nibble,
    decodeWord (BitVec.ofNat 16 (0x8001 + 0x100 * x.toNat + 0x10 * y.toNat)) = some (.or x y) ∧
    decodeWord (BitVec.ofNat 16 (0x8002 + 0x100 * x.toNat + 0x10 * y.toNat)) = some (.and x y) ∧
    decodeWord (BitVec.ofNat 16 (0x8003 + 0x100 * x.toNat + 0x10 * y.toNat)) = some (.xor x y) ∧ ∀ s : State,
      (∃ t, exec (.or x y) s = .next t ∧
        (∀ k, (t.getV x).getLsbD k = ((s.getV x).getLsbD k || (s.getV y).getLsbD k)) ∧
        s.sameVExcept t x ∧ t = { s with v := t.v } ∧ s.sameBytes t) ∧
      (∃ t, exec (.and x y) s = .next t ∧
        (∀ k, (t.getV x).getLsbD k = ((s.getV x).getLsbD k && (s.getV y).getLsbD k)) ∧
        s.sameVExcept t x ∧ t = { s with v := t.v } ∧ s.sameBytes t) ∧
      ∃ t, exec (.xor x y) s = .next t ∧
        (∀ k, (t.getV x).getLsbD k = xor ((s.getV x).getLsbD k) ((s.getV y).getLsbD k)) ∧
        s.sameVExcept t x ∧ t = { s with v := t.v } ∧ s.sameBytes t

/-- R137: ADD writes the sum modulo 256, then VF = 1 exactly when the sum exceeds 255. -/
def Obligations.AddWritesSumThenCarry : Prop :=
  ∀ x y : Nibble, decodeWord (BitVec.ofNat 16 (0x8004 + 0x100 * x.toNat + 0x10 * y.toNat)) = some (.addReg x y) ∧
    ∀ s : State, ∃ t, exec (.addReg x y) s = .next t ∧
      (x ≠ 0xF → (t.getV x).toNat = ((s.getV x).toNat + (s.getV y).toNat) % 256) ∧
      t.getV 0xF = (if 255 < (s.getV x).toNat + (s.getV y).toNat then 1 else 0) ∧
      s.sameVExceptWithFlag t x ∧ t = { s with v := t.v } ∧ s.sameBytes t

/-- R138: SUB writes V[x] - V[y] modulo 256, then VF = 1 exactly when V[x] >= V[y]. -/
def Obligations.SubWritesDifferenceThenNoBorrow : Prop :=
  ∀ x y : Nibble, decodeWord (BitVec.ofNat 16 (0x8005 + 0x100 * x.toNat + 0x10 * y.toNat)) = some (.sub x y) ∧
    ∀ s : State, ∃ t, exec (.sub x y) s = .next t ∧
      (x ≠ 0xF → (t.getV x).toNat = ((s.getV x).toNat + 256 - (s.getV y).toNat) % 256) ∧
      t.getV 0xF = (if (s.getV y).toNat ≤ (s.getV x).toNat then 1 else 0) ∧
      s.sameVExceptWithFlag t x ∧ t = { s with v := t.v } ∧ s.sameBytes t

/-- R139: SHR writes half of the source SHIFT_SOURCE selects, then VF = its bit 0. -/
def Obligations.ShrHalvesTheShiftSource : Prop :=
  ∀ x y : Nibble, decodeWord (BitVec.ofNat 16 (0x8006 + 0x100 * x.toNat + 0x10 * y.toNat)) = some (.shr x y) ∧
    ∀ (s : State) (src : Byte), src = (if s.config.shiftSource = .vy then s.getV y else s.getV x) →
      ∃ t, exec (.shr x y) s = .next t ∧ (x ≠ 0xF → (t.getV x).toNat = src.toNat / 2) ∧
        (t.getV 0xF).toNat = src.toNat % 2 ∧
        s.sameVExceptWithFlag t x ∧ t = { s with v := t.v } ∧ s.sameBytes t

/-- R140: SUBN writes V[y] - V[x] modulo 256, then VF = 1 exactly when V[y] >= V[x]. -/
def Obligations.SubnWritesDifferenceThenNoBorrow : Prop :=
  ∀ x y : Nibble, decodeWord (BitVec.ofNat 16 (0x8007 + 0x100 * x.toNat + 0x10 * y.toNat)) = some (.subn x y) ∧
    ∀ s : State, ∃ t, exec (.subn x y) s = .next t ∧
      (x ≠ 0xF → (t.getV x).toNat = ((s.getV y).toNat + 256 - (s.getV x).toNat) % 256) ∧
      t.getV 0xF = (if (s.getV x).toNat ≤ (s.getV y).toNat then 1 else 0) ∧
      s.sameVExceptWithFlag t x ∧ t = { s with v := t.v } ∧ s.sameBytes t

/-- R141: SHL writes twice the source SHIFT_SOURCE selects, modulo 256, then VF = its bit 7. -/
def Obligations.ShlDoublesTheShiftSource : Prop :=
  ∀ x y : Nibble, decodeWord (BitVec.ofNat 16 (0x800E + 0x100 * x.toNat + 0x10 * y.toNat)) = some (.shl x y) ∧
    ∀ (s : State) (src : Byte), src = (if s.config.shiftSource = .vy then s.getV y else s.getV x) →
      ∃ t, exec (.shl x y) s = .next t ∧ (x ≠ 0xF → (t.getV x).toNat = src.toNat * 2 % 256) ∧
        (t.getV 0xF).toNat = src.toNat / 128 ∧
        s.sameVExceptWithFlag t x ∧ t = { s with v := t.v } ∧ s.sameBytes t

/-- R142: RND takes one draw, whatever the mask, and writes the byte drawn masked by kk. That the byte is
`Config.rngByte` of the number of draws taken, a free value, is the model's choice (assumption 2). -/
def Obligations.RndMasksOneDraw : Prop :=
  ∀ (x : Nibble) (kk : Byte), decodeWord (BitVec.ofNat 16 (0xC000 + 0x100 * x.toNat + kk.toNat)) = some (.rnd x kk) ∧
    ∀ s : State, ∃ t, exec (.rnd x kk) s = .next t ∧ t.getV x = Config.rngByte s.rngDraws &&& kk ∧
      t.rngDraws = s.rngDraws + 1 ∧ s.sameVExcept t x ∧ t = { s with v := t.v, rngDraws := t.rngDraws } ∧ s.sameBytes t

/-! ## Display -/

/-- R161: CLS turns every pixel off and changes nothing else. -/
def Obligations.ClsTurnsEveryPixelOff : Prop :=
  decodeWord 0x00E0 = some .cls ∧ ∀ s : State, ∃ t, exec .cls s = .next t ∧
    (∀ (r c : Nat) (hr : r < 32) (hc : c < 64), t.fb[r][c] = false) ∧ t = { s with fb := t.fb } ∧ s.sameBytes t

/-- R162, R163, R160: DRW, its sprite's bytes all below 0x1000, flips exactly the pixels under a 1 bit of the sprite, both
axes wrapping, and sets VF to whether one of them was on. With a sprite byte above 0xFFF it raises AddressFault(read) with
the lowest such address and draws nothing. -/
def Obligations.DrwFlipsTheCoveredPixels : Prop :=
  ∀ x y n : Nibble,
    decodeWord (BitVec.ofNat 16 (0xD000 + 0x100 * x.toNat + 0x10 * y.toNat + n.toNat)) = some (.drw x y n) ∧
    ∀ s : State, ((∀ r : Nat, r < n.toNat → s.i.toNat + r ≤ 0xFFF) → ∃ t, exec (.drw x y n) s = .next t ∧
      (∀ (r c : Nat) (hr : r < 32) (hc : c < 64),
        (s.spriteCovers x y n c r → t.fb[r][c] = !s.fb[r][c]) ∧
        (¬ s.spriteCovers x y n c r → t.fb[r][c] = s.fb[r][c])) ∧
      ((∃ (r c : Nat) (hr : r < 32) (hc : c < 64), s.spriteCovers x y n c r ∧ s.fb[r][c] = true) → t.getV 0xF = 1) ∧
      ((∀ (r c : Nat) (hr : r < 32) (hc : c < 64), s.spriteCovers x y n c r → s.fb[r][c] = false) → t.getV 0xF = 0) ∧
      s.sameVExcept t 0xF ∧ t = { s with fb := t.fb, v := t.v } ∧ s.sameBytes t) ∧
    ∀ r : Nat, r < n.toNat → 0xFFF < s.i.toNat + r → exec (.drw x y n) s =
      .next (s.afterError .addressFault (s.pc - 2)
        (some (BitVec.ofNat 16 (0xD000 + 0x100 * x.toNat + 0x10 * y.toNat + n.toNat)))
        (.access (max s.i.toNat 0x1000) .read))

/-- R164: a draw of the same sprite at the same coordinates over the framebuffer the first draw left restores the
framebuffer, and its VF is 1 exactly when the first draw turned a pixel on. -/
def Obligations.DrawingTwiceRestoresTheFramebuffer : Prop :=
  ∀ (s t u : State) (x y n : Nibble), (∀ r : Nat, r < n.toNat → s.i.toNat + r ≤ 0xFFF) →
    exec (.drw x y n) s = .next t → u.fb = t.fb → u.i = s.i → u.getV x = s.getV x → u.getV y = s.getV y →
    s.sameBytes u → ∃ q, exec (.drw x y n) u = .next q ∧ q.fb = s.fb ∧
      (q.getV 0xF = 1 ↔ ∃ (r c : Nat) (hr : r < 32) (hc : c < 64), s.fb[r][c] = false ∧ t.fb[r][c] = true) ∧
      (q.getV 0xF = 0 ∨ q.getV 0xF = 1)

/-- R165: LD F points I at the glyph of a hex digit, 5 · V[x]; a value above 0x0F raises OperandFault. -/
def Obligations.LdFPointsAtTheGlyph : Prop :=
  ∀ x : Nibble, decodeWord (BitVec.ofNat 16 (0xF029 + 0x100 * x.toNat)) = some (.ldFVx x) ∧ ∀ s : State,
    ((s.getV x).toNat ≤ 0xF → ∃ t, exec (.ldFVx x) s = .next t ∧ t.i.toNat = 5 * (s.getV x).toNat ∧
      t = { s with i := t.i } ∧ s.sameBytes t) ∧
    (0xF < (s.getV x).toNat → exec (.ldFVx x) s =
        .next (s.afterError .operandFault (s.pc - 2)
          (some (BitVec.ofNat 16 (0xF029 + 0x100 * x.toNat))) (.operand (s.getV x))))

/-! ## Keys and timers -/

/-- R180, R181: SKP and SKNP skip when the key V[x] is held, or is not; a value above 0x0F raises OperandFault. -/
def Obligations.KeySkipsTestTheKey : Prop :=
  ∀ x : Nibble, decodeWord (BitVec.ofNat 16 (0xE09E + 0x100 * x.toNat)) = some (.skp x) ∧
    decodeWord (BitVec.ofNat 16 (0xE0A1 + 0x100 * x.toNat)) = some (.sknp x) ∧ ∀ s : State,
    (∀ b : Bool, s.keys[(s.getV x).toNat]? = some b →
      (∃ t, exec (.skp x) s = .next t ∧ t.pc = (if b = true then s.pc + 2 else s.pc) ∧ t = { s with pc := t.pc } ∧
        s.sameBytes t) ∧
      ∃ t, exec (.sknp x) s = .next t ∧ t.pc = (if b = true then s.pc else s.pc + 2) ∧ t = { s with pc := t.pc } ∧
        s.sameBytes t) ∧
    (0xF < (s.getV x).toNat →
      exec (.skp x) s =
          .next (s.afterError .operandFault (s.pc - 2)
            (some (BitVec.ofNat 16 (0xE09E + 0x100 * x.toNat))) (.operand (s.getV x))) ∧
      exec (.sknp x) s =
          .next (s.afterError .operandFault (s.pc - 2)
            (some (BitVec.ofNat 16 (0xE0A1 + 0x100 * x.toNat))) (.operand (s.getV x))))

/-- R182: LD Vx, K clears the latch and begins the wait; pc and V[x] stay. -/
def Obligations.LdVxKBeginsTheWait : Prop :=
  ∀ x : Nibble, decodeWord (BitVec.ofNat 16 (0xF00A + 0x100 * x.toNat)) = some (.ldVxK x) ∧ ∀ s : State,
    exec (.ldVxK x) s = .next { s with latch := none, mode := .waitingForKey x }

/-- R184, R185, R186: the timer instructions move a byte between V[x] and a timer. -/
def Obligations.TimerInstructionsMoveTheByte : Prop :=
  ∀ x : Nibble, decodeWord (BitVec.ofNat 16 (0xF007 + 0x100 * x.toNat)) = some (.ldVxDt x) ∧
    decodeWord (BitVec.ofNat 16 (0xF015 + 0x100 * x.toNat)) = some (.ldDtVx x) ∧
    decodeWord (BitVec.ofNat 16 (0xF018 + 0x100 * x.toNat)) = some (.ldStVx x) ∧ ∀ s : State,
      (∃ t, exec (.ldVxDt x) s = .next t ∧ t.getV x = s.dt ∧ s.sameVExcept t x ∧ t = { s with v := t.v } ∧
        s.sameBytes t) ∧
      exec (.ldDtVx x) s = .next { s with dt := s.getV x } ∧
      exec (.ldStVx x) s = .next { s with st := s.getV x }

/-! ## Index register and memory transfer -/

/-- R200, R201: LD I sets I to nnn; ADD I adds V[x] to I modulo 2^16, with no flag. -/
def Obligations.IndexIsLoadedAndAddedTo : Prop :=
  ∀ (nnn : Addr12) (x : Nibble), decodeWord (BitVec.ofNat 16 (0xA000 + nnn.toNat)) = some (.ldI nnn) ∧
    decodeWord (BitVec.ofNat 16 (0xF01E + 0x100 * x.toNat)) = some (.addIVx x) ∧ ∀ s : State,
      (∃ t, exec (.ldI nnn) s = .next t ∧ t.i.toNat = nnn.toNat ∧ t = { s with i := t.i } ∧ s.sameBytes t) ∧
      ∃ t, exec (.addIVx x) s = .next t ∧ t.i.toNat = (s.i.toNat + (s.getV x).toNat) % 65536 ∧
        t = { s with i := t.i } ∧ s.sameBytes t

/-- R202: LD B stores the hundreds, tens and ones of V[x] at I, I + 1 and I + 2 when all three may be written, and every
other byte stays; memory in its canonical form is the premise (it rules out states no run reaches). Else it raises
AddressFault(write) with the lowest address above 0xFFF or in the font region, and writes nothing. -/
def Obligations.LdBStoresTheDigits : Prop :=
  ∀ x : Nibble, decodeWord (BitVec.ofNat 16 (0xF033 + 0x100 * x.toNat)) = some (.ldBVx x) ∧ ∀ s : State,
    (Memory.wf s.config s.mem = true → 0x50 ≤ s.i.toNat → s.i.toNat + 2 ≤ 0xFFF → ∃ t, exec (.ldBVx x) s = .next t ∧
      (t.byteAt s.i.toNat).toNat = (s.getV x).toNat / 100 ∧
      (t.byteAt (s.i.toNat + 1)).toNat = (s.getV x).toNat / 10 % 10 ∧
      (t.byteAt (s.i.toNat + 2)).toNat = (s.getV x).toNat % 10 ∧
      s.sameBytesOutside t s.i.toNat 3 ∧ t = { s with mem := t.mem }) ∧
    ∀ a : Nat, s.i.toNat ≤ a → a ≤ s.i.toNat + 2 → (0xFFF < a ∨ a ≤ 0x04F) →
      (∀ b : Nat, s.i.toNat ≤ b → b < a → ¬ (0xFFF < b ∨ b ≤ 0x04F)) →
      exec (.ldBVx x) s = .next (s.afterError .addressFault (s.pc - 2)
        (some (BitVec.ofNat 16 (0xF033 + 0x100 * x.toNat))) (.access a .write))

/-- R203, R205: LD [I], Vx stores V0..Vx from I on, ascending, when every address may be written; every other byte stays
and I becomes what LOAD_STORE_I says. Else it raises AddressFault(write) with the lowest address above 0xFFF or in the font
region, and writes nothing. -/
def Obligations.LdMemStoresTheRegisters : Prop :=
  ∀ x : Nibble, decodeWord (BitVec.ofNat 16 (0xF055 + 0x100 * x.toNat)) = some (.ldMemVx x) ∧ ∀ s : State,
    (Memory.wf s.config s.mem = true → 0x50 ≤ s.i.toNat → s.i.toNat + x.toNat ≤ 0xFFF →
      ∃ t, exec (.ldMemVx x) s = .next t ∧
      (∀ r : Nibble, r.toNat ≤ x.toNat → t.byteAt (s.i.toNat + r.toNat) = s.getV r) ∧
      s.sameBytesOutside t s.i.toNat (x.toNat + 1) ∧
      t.i.toNat = (match s.config.loadStoreI with
        | .unchanged => s.i.toNat
        | .plusXPlus1 => s.i.toNat + x.toNat + 1
        | .plusX => s.i.toNat + x.toNat) % 65536 ∧
      t = { s with mem := t.mem, i := t.i }) ∧
    ∀ a : Nat, s.i.toNat ≤ a → a ≤ s.i.toNat + x.toNat → (0xFFF < a ∨ a ≤ 0x04F) →
      (∀ b : Nat, s.i.toNat ≤ b → b < a → ¬ (0xFFF < b ∨ b ≤ 0x04F)) →
      exec (.ldMemVx x) s = .next (s.afterError .addressFault (s.pc - 2)
        (some (BitVec.ofNat 16 (0xF055 + 0x100 * x.toNat))) (.access a .write))

/-- R204, R205: LD Vx, [I] loads V0..Vx from I on when every address may be read; the registers above stay and I becomes
what LOAD_STORE_I says. Else it raises AddressFault(read) with the lowest address above 0xFFF, and loads nothing. -/
def Obligations.LdVxMemLoadsTheRegisters : Prop :=
  ∀ x : Nibble, decodeWord (BitVec.ofNat 16 (0xF065 + 0x100 * x.toNat)) = some (.ldVxMem x) ∧ ∀ s : State,
    (s.i.toNat + x.toNat ≤ 0xFFF → ∃ t, exec (.ldVxMem x) s = .next t ∧
      (∀ r : Nibble, r.toNat ≤ x.toNat → t.getV r = s.byteAt (s.i.toNat + r.toNat)) ∧
      (∀ r : Nibble, x.toNat < r.toNat → t.getV r = s.getV r) ∧
      t.i.toNat = (match s.config.loadStoreI with
        | .unchanged => s.i.toNat
        | .plusXPlus1 => s.i.toNat + x.toNat + 1
        | .plusX => s.i.toNat + x.toNat) % 65536 ∧
      t = { s with v := t.v, i := t.i } ∧ s.sameBytes t) ∧
    (0xFFF < s.i.toNat + x.toNat → exec (.ldVxMem x) s = .next (s.afterError .addressFault (s.pc - 2)
      (some (BitVec.ofNat 16 (0xF065 + 0x100 * x.toNat))) (.access (max s.i.toNat 0x1000) .read)))

/-- R57: an instruction that touches several bytes checks every address first: if some of its addresses fault (above 0xFFF,
or a store's in the font region, R54), it reports the lowest and makes no write. -/
def Obligations.MultiByteAccessesAreAllOrNothing : Prop :=
  ∀ (s : State) (i : Instr) (x y n : Nibble) (count a : Nat) (k : Access),
    ((i = .drw x y n ∧ count = n.toNat ∧ k = .read) ∨ (i = .ldBVx x ∧ count = 3 ∧ k = .write) ∨
      (i = .ldMemVx x ∧ count = x.toNat + 1 ∧ k = .write) ∨ (i = .ldVxMem x ∧ count = x.toNat + 1 ∧ k = .read)) →
    s.i.toNat ≤ a → a < s.i.toNat + count → (0xFFF < a ∨ (k = .write ∧ a ≤ 0x04F)) →
    (∀ b : Nat, s.i.toNat ≤ b → b < a → ¬ (0xFFF < b ∨ (k = .write ∧ b ≤ 0x04F))) →
    exec i s = .next (s.afterError .addressFault (s.pc - 2) (some (encode i)) (.access a k))

/-- R63, R203, R204: what LD [I], Vx stored, LD Vx, [I] at the same I loads back, in any state with the same memory. -/
def Obligations.StoredRegistersLoadBack : Prop :=
  ∀ (s t u : State) (x : Nibble), Memory.wf s.config s.mem = true → exec (.ldMemVx x) s = .next t → t.live →
    u.i = s.i → t.sameBytes u →
    ∃ q, exec (.ldVxMem x) u = .next q ∧ ∀ r : Nibble, r.toNat ≤ x.toNat → q.getV r = s.getV r

/-- R66, R275: a stored word is the one the next fetch from its address reads. -/
def Obligations.StoredWordIsFetchedAtOnce : Prop :=
  ∀ (s t : State) (x : Nibble) (i : Instr), Memory.wf s.config s.mem = true → s.mode = .running →
    exec (.ldMemVx x) s = .next t → t.live → 1 ≤ x.toNat → s.pc = s.i →
    decodeWord (BitVec.ofNat 16 (0x100 * (s.getV 0x0).toNat + (s.getV 0x1).toNat)) = some i →
    step t = exec i { t with pc := t.pc + 2 }

/-! ## Whole-machine rules -/

/-- R166: only CLS and DRW change the framebuffer: a step that changes it ran one of them. -/
def Obligations.OnlyClsAndDrwChangeTheFramebuffer : Prop :=
  ∀ s t : State, step s = .next t → t.fb ≠ s.fb →
    s.mode = .running ∧
      (decodeWord s.fetchWord = some .cls ∨ ∃ x y n, decodeWord s.fetchWord = some (.drw x y n))

/-- R185, R231: only Fx15 writes DT and only Fx18 writes ST. -/
def Obligations.OnlyFx15AndFx18SetTheTimers : Prop :=
  ∀ s t : State, step s = .next t →
    (t.dt ≠ s.dt → ∃ x, decodeWord s.fetchWord = some (.ldDtVx x)) ∧
    (t.st ≠ s.st → ∃ x, decodeWord s.fetchWord = some (.ldStVx x))

/-- R57, R60: only Fx33 and Fx55 write memory, and no more than the three, or x + 1, bytes at I. -/
def Obligations.OnlyStoresChangeMemory : Prop :=
  ∀ s t : State, Memory.wf s.config s.mem = true → step s = .next t → ∀ a : Nat, t.byteAt a ≠ s.byteAt a →
    ∃ x, (decodeWord s.fetchWord = some (.ldBVx x) ∧ s.i.toNat ≤ a ∧ a ≤ s.i.toNat + 2) ∨
      (decodeWord s.fetchWord = some (.ldMemVx x) ∧ s.i.toNat ≤ a ∧ a ≤ s.i.toNat + x.toNat)

/-- R21, R34: an instruction that names VF as no destination and is none of the six flag writers leaves VF unchanged. -/
def Obligations.VfIsWrittenOnlyByItsWriters : Prop :=
  ∀ (i : Instr) (s t : State), exec i s = .next t → t.getV 0xF ≠ s.getV 0xF →
    (∃ x y, i = .addReg x y ∨ i = .sub x y ∨ i = .shr x y ∨ i = .subn x y ∨ i = .shl x y) ∨
    (∃ x y n, i = .drw x y n) ∨
    (∃ kk, i = .ldImm 0xF kk ∨ i = .addImm 0xF kk ∨ i = .rnd 0xF kk) ∨
    (∃ y, i = .ldReg 0xF y ∨ i = .or 0xF y ∨ i = .and 0xF y ∨ i = .xor 0xF y) ∨
    i = .ldVxDt 0xF ∨ i = .ldVxMem 0xF

/-- R25, R26: only CALL and RET move SP, and only CALL writes a stack entry. -/
def Obligations.OnlyCallAndRetUseTheStack : Prop :=
  ∀ s t : State, step s = .next t →
    (t.stack ≠ s.stack → ∃ nnn, decodeWord s.fetchWord = some (.call nnn)) ∧
    (t.sp ≠ s.sp → decodeWord s.fetchWord = some .ret ∨ ∃ nnn, decodeWord s.fetchWord = some (.call nnn))

/-- R29, R33, R35: no step changes the keys, the parameters or the scheduler's counters, and only RND advances the RNG. -/
def Obligations.StepsLeaveTheHostsStateAlone : Prop :=
  ∀ s t : State, step s = .next t → t.keys = s.keys ∧ t.config = s.config ∧ t.tNs = s.tNs ∧ t.cpuDone = s.cpuDone ∧
    t.tmrDone = s.tmrDone ∧
    (t.rngDraws = s.rngDraws ∨ (t.rngDraws = s.rngDraws + 1 ∧ ∃ x kk, decodeWord s.fetchWord = some (.rnd x kk)))

/-! ## Invariants -/

/-- R51, R54: every step keeps memory in its canonical form and the font region as FONT, never mutated. -/
def Obligations.StepsKeepMemoryAndFont : Prop :=
  ∀ s t : State, s.memoryInv → step s = .next t → t.memoryInv

/-- R23: every step keeps pc at most 0x10FE and every return address on the stack at most 0x1000. -/
def Obligations.StepsKeepThePcInRange : Prop := ∀ s t : State, s.pcInv → step s = .next t → t.pcInv

/-- R220, R221, R30, R31: every step keeps the mode's invariant: a fault record is one of the taxonomy's, raised by an
instruction that can raise it, and a key is latched only while the core waits. -/
def Obligations.StepsKeepTheErrorTaxonomy : Prop := ∀ s t : State, s.modeInv → step s = .next t → t.modeInv

/-- Every sequence of host operations keeps the whole invariant (R241, R243). -/
def Obligations.HostOperationsKeepTheInvariant : Prop :=
  ∀ (ops : List HostOp) (s t : State), s.Inv → performAll ops s = .next t → t.Inv

/-- R36: the invariant holds after reset and after every successful initialisation with positive CPU_HZ. -/
def Obligations.ResetAndInitialisationMeetTheInvariant : Prop :=
  State.reset.Inv ∧ ∀ (c : Config) (p : List Byte) (s : State), 0 < c.cpuHz → initialised c p = .ok s → s.Inv

/-! ## Reset, timers, input, scheduler -/

/-- R36, R271, with the parameters' defaults of R7 and R53: the machine after reset is the core that initialisation makes
from an empty program, and what its registers and its memory hold. -/
def Obligations.ResetHoldsTheStatedValues : Prop :=
  initialised Config.default [] = .ok State.reset ∧
  (∀ r : Nibble, State.reset.getV r = 0) ∧ State.reset.pc = 0x200 ∧ State.reset.i = 0 ∧ State.reset.sp.val = 0 ∧
  State.reset.dt = 0 ∧ State.reset.st = 0 ∧ State.reset.latch = none ∧ State.reset.mode = .running ∧
  (∀ (a : Nat) (h : a < 80), State.reset.byteAt a = Config.defaultFont[a]) ∧
  ∀ a : Nat, 80 ≤ a → State.reset.byteAt a = 0

/-- R270, R271, R36: a program of at most 3584 bytes stands at 0x200, FONT below 0x050 and 0x00 everywhere else, and every
other piece of state holds the value R36 gives (the RNG its initial state, the one `State.reset` has); a longer program is
LoadError with its length. -/
def Obligations.InitialisationLoadsTheProgram : Prop :=
  ∀ (c : Config) (p : List Byte),
    (p.length ≤ 3584 → ∃ s, initialised c p = .ok s ∧
      (∀ (a : Nat) (h : a < 80), s.byteAt a = c.font[a]) ∧
      (∀ k : Nat, k < p.length → p[k]? = some (s.byteAt (0x200 + k))) ∧
      (∀ a : Nat, 80 ≤ a → (a < 0x200 ∨ 0x200 + p.length ≤ a) → s.byteAt a = 0) ∧
      (∀ r : Nibble, s.getV r = 0) ∧ s.pc = 0x200 ∧ s.i = 0 ∧ s.sp.val = 0 ∧
      (∀ (k : Nat) (h : k < 16), s.stack[k] = 0) ∧ s.dt = 0 ∧ s.st = 0 ∧
      (∀ (r c : Nat) (hr : r < 32) (hc : c < 64), s.fb[r][c] = false) ∧
      (∀ k : Nibble, s.isPressed k = false) ∧ s.latch = none ∧ s.mode = .running ∧
      s.tNs = 0 ∧ s.cpuDone = 0 ∧ s.tmrDone = 0 ∧ s.rngDraws = State.reset.rngDraws ∧ s.config = c) ∧
    (3584 < p.length → initialised c p = .error ⟨p.length⟩)

/-- R230: a tick takes 1 from each nonzero timer and leaves a zero one at 0, in every mode but Halted, and changes nothing
else; in Halted it changes nothing. -/
def Obligations.TicksCountTheTimersDown : Prop :=
  ∀ s : State,
    (s.live → s.tickTimers.dt.toNat = s.dt.toNat - 1 ∧ s.tickTimers.st.toNat = s.st.toNat - 1 ∧
      s.tickTimers = { s with dt := s.tickTimers.dt, st := s.tickTimers.st }) ∧
    ∀ f, s.mode = .halted f → s.tickTimers = s

/-- R236, R235: set_pressed latches the first press that comes while the core waits, and nothing else; clear_keys releases
every key and leaves the latch; poll_newly_pressed returns and clears the latch. -/
def Obligations.TheFirstPressOfAWaitIsLatched : Prop :=
  ∀ (s : State) (k : Nibble) (b : Bool),
    ((∃ x, s.mode = .waitingForKey x) → s.latch = none → s.isPressed k = false → b = true →
      (s.setPressed k b).latch = some k) ∧
    (((∀ x, s.mode ≠ .waitingForKey x) ∨ s.latch ≠ none ∨ s.isPressed k = true ∨ b = false) →
      (s.setPressed k b).latch = s.latch) ∧
    (s.setPressed k b).isPressed k = b ∧ (∀ r, r ≠ k → (s.setPressed k b).isPressed r = s.isPressed r) ∧
    s.setPressed k b = { s with keys := (s.setPressed k b).keys, latch := (s.setPressed k b).latch } ∧
    (∀ r, s.clearKeys.isPressed r = false) ∧ s.clearKeys = { s with keys := s.clearKeys.keys } ∧
    s.pollNewlyPressed = (s.latch, { s with latch := none })

/-- R240 (1): after an advance that returns Ok, the steps and ticks issued are exactly those due at the elapsed time. -/
def Obligations.AdvanceIssuesExactlyWhatIsDue : Prop :=
  ∀ (s t : State) (ns : Nat), s.schedInv → advance ns s = .next t → t.live →
    t.tNs = s.tNs + ns ∧ t.cpuDone = t.tNs * t.config.cpuHz / 1000000000 ∧ t.tmrDone = t.tNs * 60 / 1000000000

/-- R240 (2): the run depends only on the total elapsed time: two advances in a row, the first returning Ok, leave the same
state as one advance by the sum. -/
def Obligations.AdvanceIsIndependentOfTheSplit : Prop :=
  ∀ (s t : State) (a b : Nat), advance a s = .next t → t.live → advance b t = advance (a + b) s

/-- R239: advance, as the rule's loop: in Halted nothing changes and the record is returned; else time passes first, and
then, while a step or a tick is due, a tick goes first unless a step is due strictly earlier, and a step's error ends the
call. -/
def Obligations.AdvanceTakesEventsInTimeOrder : Prop :=
  ∀ (s : State) (ns : Nat) (cpuDue tmrDue : Prop),
    (cpuDue ↔ (s.cpuDone + 1) * 1000000000 ≤ s.tNs * s.config.cpuHz) →
    (tmrDue ↔ (s.tmrDone + 1) * 1000000000 ≤ s.tNs * 60) →
    (∀ f, s.mode = .halted f → advance ns s = .next s ∧ s.result = .error f) ∧
    (s.live → advance ns s = advance 0 { s with tNs := s.tNs + ns }) ∧
    (s.live → ¬ cpuDue → ¬ tmrDue → advance 0 s = .next s) ∧
    (s.live → tmrDue → (¬ cpuDue ∨ (s.tmrDone + 1) * s.config.cpuHz ≤ (s.cpuDone + 1) * 60) →
      advance 0 s = advance 0 { s.tickTimers with tmrDone := s.tmrDone + 1 }) ∧
    (s.live → cpuDue → (¬ tmrDue ∨ (s.cpuDone + 1) * 60 < (s.tmrDone + 1) * s.config.cpuHz) →
      ∃ t, step { s with cpuDone := s.cpuDone + 1 } = .next t ∧
        (∀ f, t.mode = .halted f → advance 0 s = .next t) ∧ (t.live → advance 0 s = advance 0 t))
end

