-- ==== Sys2Proof/Laws/Decode.lean ====
section
/-!
SUPPORT. Fields and encodings as natural numbers, so that facts about words are facts of linear arithmetic: one lemma per
field, per format and per mask of the opcode table.
-/

namespace Sys2Proof

/-! ## The fields of R81 -/

theorem opField_toNat (w : Word) : (opField w).toNat = w.toNat / 0x1000 := by
  have := w.isLt
  simp [opField, BitVec.extractLsb'_toNat, Nat.shiftRight_eq_div_pow]
  omega

theorem xField_toNat (w : Word) : (xField w).toNat = w.toNat / 0x100 % 0x10 := by
  simp [xField, BitVec.extractLsb'_toNat, Nat.shiftRight_eq_div_pow]

theorem yField_toNat (w : Word) : (yField w).toNat = w.toNat / 0x10 % 0x10 := by
  simp [yField, BitVec.extractLsb'_toNat, Nat.shiftRight_eq_div_pow]

theorem nField_toNat (w : Word) : (nField w).toNat = w.toNat % 0x10 := by
  simp [nField, BitVec.extractLsb'_toNat]

theorem kkField_toNat (w : Word) : (kkField w).toNat = w.toNat % 0x100 := by
  simp [kkField, BitVec.extractLsb'_toNat]

theorem nnnField_toNat (w : Word) : (nnnField w).toNat = w.toNat % 0x1000 := by
  simp [nnnField, BitVec.extractLsb'_toNat]

/-! ## The formats of R82 -/

theorem encodeXKK_toNat (op x : Nibble) (kk : Byte) :
    (encodeXKK op x kk).toNat = 0x1000 * op.toNat + 0x100 * x.toNat + kk.toNat := by
  have := op.isLt; have := x.isLt; have := kk.isLt
  rw [encodeXKK, BitVec.toNat_ofNat]; omega

theorem encodeXYN_toNat (op x y n : Nibble) :
    (encodeXYN op x y n).toNat = 0x1000 * op.toNat + 0x100 * x.toNat + 0x10 * y.toNat + n.toNat := by
  have := op.isLt; have := x.isLt; have := y.isLt; have := n.isLt
  rw [encodeXYN, BitVec.toNat_ofNat]; omega

theorem encodeNNN_toNat (op : Nibble) (nnn : Addr12) : (encodeNNN op nnn).toNat = 0x1000 * op.toNat + nnn.toNat := by
  have := op.isLt; have := nnn.isLt
  rw [encodeNNN, BitVec.toNat_ofNat]; omega

/-- R58: the byte at the lower address is the more significant. -/
theorem wordOfBytes_toNat (hi lo : Byte) : (wordOfBytes hi lo).toNat = 0x100 * hi.toNat + lo.toNat := by
  have := hi.isLt; have := lo.isLt
  rw [wordOfBytes, BitVec.toNat_ofNat]; omega

/-! ## The fields of each format -/

theorem encodeNNN_fields (op : Nibble) (nnn : Addr12) :
    opField (encodeNNN op nnn) = op ∧ nnnField (encodeNNN op nnn) = nnn := by
  have := op.isLt; have := nnn.isLt
  refine ⟨?_, ?_⟩ <;> apply BitVec.eq_of_toNat_eq <;>
    simp only [opField_toNat, nnnField_toNat, encodeNNN_toNat] <;> omega

theorem encodeXKK_fields (op x : Nibble) (kk : Byte) :
    opField (encodeXKK op x kk) = op ∧ xField (encodeXKK op x kk) = x ∧ kkField (encodeXKK op x kk) = kk := by
  have := op.isLt; have := x.isLt; have := kk.isLt
  refine ⟨?_, ?_, ?_⟩ <;> apply BitVec.eq_of_toNat_eq <;>
    simp only [opField_toNat, xField_toNat, kkField_toNat, encodeXKK_toNat] <;> omega

theorem encodeXYN_fields (op x y n : Nibble) :
    opField (encodeXYN op x y n) = op ∧ xField (encodeXYN op x y n) = x ∧ yField (encodeXYN op x y n) = y ∧
      nField (encodeXYN op x y n) = n := by
  have := op.isLt; have := x.isLt; have := y.isLt; have := n.isLt
  refine ⟨?_, ?_, ?_, ?_⟩ <;> apply BitVec.eq_of_toNat_eq <;>
    simp only [opField_toNat, xField_toNat, yField_toNat, nField_toNat, encodeXYN_toNat] <;> omega

/-! ## The masks of the opcode table -/

theorem and_F000_eq (w : Word) : w &&& 0xF000#16 = (w >>> 12) <<< 12 := by
  ext i hi; simp; interval_cases i <;> simp

theorem and_F00F_eq (w : Word) : w &&& 0xF00F#16 = (w >>> 12) <<< 12 ||| (w &&& 0xF#16) := by
  ext i hi; simp; interval_cases i <;> simp

theorem and_F0FF_eq (w : Word) : w &&& 0xF0FF#16 = (w >>> 12) <<< 12 ||| (w &&& 0xFF#16) := by
  ext i hi; simp; interval_cases i <;> simp

theorem and_F000_toNat (w : Word) : (w &&& 0xF000#16).toNat = 0x1000 * (w.toNat / 0x1000) := by
  have := w.isLt
  rw [and_F000_eq]
  simp [BitVec.toNat_shiftLeft, Nat.shiftLeft_eq, Nat.shiftRight_eq_div_pow]
  omega

theorem and_F00F_toNat (w : Word) : (w &&& 0xF00F#16).toNat = 0x1000 * (w.toNat / 0x1000) + w.toNat % 0x10 := by
  have h := and_F000_toNat w
  have h2 : (w &&& 0xF#16).toNat = w.toNat % 0x10 := by simp [Nat.and_two_pow_sub_one_eq_mod w.toNat 4]
  rw [and_F000_eq] at h
  rw [and_F00F_eq, BitVec.toNat_or, h, h2]
  exact (Nat.two_pow_add_eq_or_of_lt (i := 12) (by omega) _).symm

theorem and_F0FF_toNat (w : Word) : (w &&& 0xF0FF#16).toNat = 0x1000 * (w.toNat / 0x1000) + w.toNat % 0x100 := by
  have h := and_F000_toNat w
  have h2 : (w &&& 0xFF#16).toNat = w.toNat % 0x100 := by simp [Nat.and_two_pow_sub_one_eq_mod w.toNat 8]
  rw [and_F000_eq] at h
  rw [and_F0FF_eq, BitVec.toNat_or, h, h2]
  exact (Nat.two_pow_add_eq_or_of_lt (i := 12) (by omega) _).symm

theorem and_FFFF_eq (w : Word) : w &&& 0xFFFF#16 = w := by
  ext i hi; simp; interval_cases i <;> simp

/-! ## Each format under its mask: the operands masked away -/

theorem encodeNNN_and (op : Nibble) (nnn : Addr12) :
    encodeNNN op nnn &&& 0xF000#16 = BitVec.ofNat 16 (0x1000 * op.toNat) := by
  have := op.isLt; have := nnn.isLt
  apply BitVec.eq_of_toNat_eq
  rw [and_F000_toNat, encodeNNN_toNat, BitVec.toNat_ofNat]; omega

theorem encodeXKK_and (op x : Nibble) (kk : Byte) :
    encodeXKK op x kk &&& 0xF000#16 = BitVec.ofNat 16 (0x1000 * op.toNat) := by
  have := op.isLt; have := x.isLt; have := kk.isLt
  apply BitVec.eq_of_toNat_eq
  rw [and_F000_toNat, encodeXKK_toNat, BitVec.toNat_ofNat]; omega

theorem encodeXYN_and (op x y n : Nibble) :
    encodeXYN op x y n &&& 0xF000#16 = BitVec.ofNat 16 (0x1000 * op.toNat) := by
  have := op.isLt; have := x.isLt; have := y.isLt; have := n.isLt
  apply BitVec.eq_of_toNat_eq
  rw [and_F000_toNat, encodeXYN_toNat, BitVec.toNat_ofNat]; omega

theorem encodeXY0_and (op x y f : Nibble) :
    encodeXYN op x y f &&& 0xF00F#16 = BitVec.ofNat 16 (0x1000 * op.toNat + f.toNat) := by
  have := op.isLt; have := x.isLt; have := y.isLt; have := f.isLt
  apply BitVec.eq_of_toNat_eq
  rw [and_F00F_toNat, encodeXYN_toNat, BitVec.toNat_ofNat]; omega

theorem encodeXFF_and (op x : Nibble) (ff : Byte) :
    encodeXKK op x ff &&& 0xF0FF#16 = BitVec.ofNat 16 (0x1000 * op.toNat + ff.toNat) := by
  have := op.isLt; have := x.isLt; have := ff.isLt
  apply BitVec.eq_of_toNat_eq
  rw [and_F0FF_toNat, encodeXKK_toNat, BitVec.toNat_ofNat]; omega

end Sys2Proof
end

