-- ==== Sys2Proof/Laws/Memory.lean ====
section
/-!
SUPPORT. The laws of memory: a read gives the last write to its address (spec/20_memory.md R63), a write leaves every other
byte alone, and every operation keeps the canonical form.
-/

namespace Sys2Proof.Machine

theorem Memory.rising_mono {lo lo' : Nat} (h : lo' ≤ lo) : {m : List Host.Cell} → Memory.rising lo m = true →
    Memory.rising lo' m = true
  | [], _ => rfl
  | (b, w) :: rest, hm => by
    simp only [Memory.rising, Bool.and_eq_true, decide_eq_true_eq] at hm ⊢
    exact ⟨h.trans hm.1, hm.2⟩

/-- Below its first address a rising list lists nothing. -/
theorem Memory.find_below {lo a : Nat} (h : a < lo) : {m : List Host.Cell} → Memory.rising lo m = true →
    Memory.find m a = none
  | [], _ => rfl
  | (b, w) :: rest, hm => by
    simp only [Memory.rising, Bool.and_eq_true, decide_eq_true_eq] at hm
    have : b ≠ a := by omega
    simp [Memory.find, this, Memory.find_below (m := rest) (show a < b + 1 by omega) hm.2]

theorem Memory.find_insert (m : List Host.Cell) (a b : Nat) (v : Byte) :
    Memory.find (Memory.insert m a v) b = if a = b then some v else Memory.find m b := by
  induction m with
  | nil => simp [Memory.insert, Memory.find]
  | cons c rest ih =>
    obtain ⟨c, w⟩ := c
    unfold Memory.insert
    split
    · simp [Memory.find]
    · split
      · subst_vars; by_cases h : c = b <;> simp [Memory.find, h]
      · by_cases h : c = b
        · have : a ≠ b := by omega
          simp [Memory.find, h, this]
        · simp [Memory.find, h, ih]

theorem Memory.find_erase {lo : Nat} (a b : Nat) : {m : List Host.Cell} → Memory.rising lo m = true →
    Memory.find (Memory.erase m a) b = if a = b then none else Memory.find m b
  | [], _ => by simp [Memory.erase, Memory.find]
  | (c, w) :: rest, hm => by
    simp only [Memory.rising, Bool.and_eq_true, decide_eq_true_eq] at hm
    unfold Memory.erase
    split
    · subst_vars
      by_cases h : c = b
      · subst h; simp [Memory.find_below (Nat.lt_succ_self c) hm.2]
      · simp [Memory.find, h]
    · by_cases h : c = b
      · have : a ≠ b := by omega
        simp [Memory.find, h, this]
      · simp [Memory.find, h, Memory.find_erase a b hm.2]

/-- R63: a read gives the last write to its address, and a write leaves every other byte alone. -/
theorem Memory.read_write {c : Config} {m : List Host.Cell} (h : Memory.wf c m = true) (a b : Nat) (v : Byte) :
    Memory.read c (Memory.write c m a v) b = if a = b then v else Memory.read c m b := by
  have hr : Memory.rising 0 m = true := by simp only [Memory.wf, Bool.and_eq_true] at h; exact h.1
  unfold Memory.write
  split
  · by_cases hb : a = b
    · subst hb; simp_all [Memory.read, Memory.find_erase a a hr]
    · simp [Memory.read, Memory.find_erase a b hr, hb]
  · by_cases hb : a = b <;> simp [Memory.read, Memory.find_insert, hb]

theorem Memory.rising_insert {lo a : Nat} (v : Byte) (ha : lo ≤ a) : {m : List Host.Cell} → Memory.rising lo m = true →
    Memory.rising lo (Memory.insert m a v) = true
  | [], _ => by simp [Memory.insert, Memory.rising, ha]
  | (c, w) :: rest, hm => by
    simp only [Memory.rising, Bool.and_eq_true, decide_eq_true_eq] at hm
    unfold Memory.insert
    split
    · rename_i h; simp [Memory.rising, ha, hm.2, Nat.succ_le_of_lt h]
    · split
      · subst_vars; simp [Memory.rising, ha, hm.2]
      · simp [Memory.rising, hm.1, Memory.rising_insert v (show c + 1 ≤ a by omega) hm.2]

theorem Memory.rising_erase {lo : Nat} (a : Nat) : {m : List Host.Cell} → Memory.rising lo m = true →
    Memory.rising lo (Memory.erase m a) = true
  | [], _ => rfl
  | (c, w) :: rest, hm => by
    simp only [Memory.rising, Bool.and_eq_true, decide_eq_true_eq] at hm
    unfold Memory.erase
    split
    · exact Memory.rising_mono (by omega) hm.2
    · simp [Memory.rising, hm.1, Memory.rising_erase a hm.2]

theorem Memory.mem_insert {m : List Host.Cell} {a : Nat} {v : Byte} {c : Host.Cell} (h : c ∈ Memory.insert m a v) :
    c = (a, v) ∨ c ∈ m := by
  induction m with
  | nil => simpa [Memory.insert] using h
  | cons d rest ih =>
    obtain ⟨d, w⟩ := d
    unfold Memory.insert at h
    split at h
    · simpa using h
    · split at h
      · simp only [List.mem_cons] at h ⊢; tauto
      · simp only [List.mem_cons] at h ⊢
        rcases h with h | h
        · exact .inr (.inl h)
        · rcases ih h with h | h
          · exact .inl h
          · exact .inr (.inr h)

theorem Memory.mem_erase {m : List Host.Cell} {a : Nat} {c : Host.Cell} (h : c ∈ Memory.erase m a) : c ∈ m := by
  induction m with
  | nil => exact h
  | cons d rest ih =>
    obtain ⟨d, w⟩ := d
    unfold Memory.erase at h
    split at h
    · exact List.mem_cons_of_mem _ h
    · simp only [List.mem_cons] at h ⊢
      exact h.imp id ih

/-- Every write inside the space keeps the canonical form. -/
theorem Memory.wf_write {c : Config} {m : List Host.Cell} (h : Memory.wf c m = true) {a : Nat} (ha : a < memSize)
    (v : Byte) : Memory.wf c (Memory.write c m a v) = true := by
  simp only [Memory.wf, Bool.and_eq_true, List.all_eq_true] at h ⊢
  unfold Memory.write
  split
  · exact ⟨Memory.rising_erase a h.1, fun d hd => h.2 d (Memory.mem_erase hd)⟩
  · rename_i hv
    refine ⟨Memory.rising_insert v (Nat.zero_le a) h.1, fun d hd => ?_⟩
    rcases Memory.mem_insert hd with rfl | hd
    · simp [Memory.cellOk, ha, hv]
    · exact h.2 d hd

/-- The empty list, memory at reset, has the canonical form. -/
theorem Memory.wf_nil (c : Config) : Memory.wf c [] = true := rfl

@[simp] theorem Memory.read_nil (c : Config) (a : Nat) : Memory.read c [] a = Memory.unlisted c a := rfl

/-- R56 through the state: the byte written reads back, every other byte as before. -/
theorem State.byteAt_putByte {s : State} (h : Memory.wf s.config s.mem = true) (a b : Nat) (v : Byte) :
    (s.putByte a v).byteAt b = if a = b then v else s.byteAt b :=
  Memory.read_write h a b v

theorem State.wf_putByte {s : State} (h : Memory.wf s.config s.mem = true) {a : Nat} (ha : a < memSize) (v : Byte) :
    Memory.wf (s.putByte a v).config (s.putByte a v).mem = true :=
  Memory.wf_write h ha v

end Sys2Proof.Machine
end

