-- ==== Sys2Proof/Laws/State.lean ====
section
/-!
SUPPORT. One lemma per field per update, so that no later proof unfolds a record update; then what each update leaves of
the reads (`getV`, `byteAt`).
-/

namespace Sys2Proof.Machine

variable (s : State)

/-! ### setV -/

@[simp] theorem State.setV_config (x : Nibble) (b : Byte) : (s.setV x b).config = s.config := rfl
@[simp] theorem State.setV_v (x : Nibble) (b : Byte) : (s.setV x b).v = s.v.set x.toNat b x.isLt := rfl
@[simp] theorem State.setV_i (x : Nibble) (b : Byte) : (s.setV x b).i = s.i := rfl
@[simp] theorem State.setV_pc (x : Nibble) (b : Byte) : (s.setV x b).pc = s.pc := rfl
@[simp] theorem State.setV_stack (x : Nibble) (b : Byte) : (s.setV x b).stack = s.stack := rfl
@[simp] theorem State.setV_sp (x : Nibble) (b : Byte) : (s.setV x b).sp = s.sp := rfl
@[simp] theorem State.setV_dt (x : Nibble) (b : Byte) : (s.setV x b).dt = s.dt := rfl
@[simp] theorem State.setV_st (x : Nibble) (b : Byte) : (s.setV x b).st = s.st := rfl
@[simp] theorem State.setV_fb (x : Nibble) (b : Byte) : (s.setV x b).fb = s.fb := rfl
@[simp] theorem State.setV_keys (x : Nibble) (b : Byte) : (s.setV x b).keys = s.keys := rfl
@[simp] theorem State.setV_latch (x : Nibble) (b : Byte) : (s.setV x b).latch = s.latch := rfl
@[simp] theorem State.setV_mode (x : Nibble) (b : Byte) : (s.setV x b).mode = s.mode := rfl
@[simp] theorem State.setV_mem (x : Nibble) (b : Byte) : (s.setV x b).mem = s.mem := rfl
@[simp] theorem State.setV_rngDraws (x : Nibble) (b : Byte) : (s.setV x b).rngDraws = s.rngDraws := rfl
@[simp] theorem State.setV_tNs (x : Nibble) (b : Byte) : (s.setV x b).tNs = s.tNs := rfl
@[simp] theorem State.setV_cpuDone (x : Nibble) (b : Byte) : (s.setV x b).cpuDone = s.cpuDone := rfl
@[simp] theorem State.setV_tmrDone (x : Nibble) (b : Byte) : (s.setV x b).tmrDone = s.tmrDone := rfl
@[simp] theorem State.byteAt_setV (adr : Nat) (x : Nibble) (b : Byte) : (s.setV x b).byteAt adr = s.byteAt adr := rfl

/-! ### setI -/

@[simp] theorem State.setI_config (w : Word) : (s.setI w).config = s.config := rfl
@[simp] theorem State.setI_v (w : Word) : (s.setI w).v = s.v := rfl
@[simp] theorem State.setI_i (w : Word) : (s.setI w).i = w := rfl
@[simp] theorem State.setI_pc (w : Word) : (s.setI w).pc = s.pc := rfl
@[simp] theorem State.setI_stack (w : Word) : (s.setI w).stack = s.stack := rfl
@[simp] theorem State.setI_sp (w : Word) : (s.setI w).sp = s.sp := rfl
@[simp] theorem State.setI_dt (w : Word) : (s.setI w).dt = s.dt := rfl
@[simp] theorem State.setI_st (w : Word) : (s.setI w).st = s.st := rfl
@[simp] theorem State.setI_fb (w : Word) : (s.setI w).fb = s.fb := rfl
@[simp] theorem State.setI_keys (w : Word) : (s.setI w).keys = s.keys := rfl
@[simp] theorem State.setI_latch (w : Word) : (s.setI w).latch = s.latch := rfl
@[simp] theorem State.setI_mode (w : Word) : (s.setI w).mode = s.mode := rfl
@[simp] theorem State.setI_mem (w : Word) : (s.setI w).mem = s.mem := rfl
@[simp] theorem State.setI_rngDraws (w : Word) : (s.setI w).rngDraws = s.rngDraws := rfl
@[simp] theorem State.setI_tNs (w : Word) : (s.setI w).tNs = s.tNs := rfl
@[simp] theorem State.setI_cpuDone (w : Word) : (s.setI w).cpuDone = s.cpuDone := rfl
@[simp] theorem State.setI_tmrDone (w : Word) : (s.setI w).tmrDone = s.tmrDone := rfl
@[simp] theorem State.getV_setI (r : Nibble) (w : Word) : (s.setI w).getV r = s.getV r := rfl
@[simp] theorem State.byteAt_setI (adr : Nat) (w : Word) : (s.setI w).byteAt adr = s.byteAt adr := rfl

/-! ### setPc -/

@[simp] theorem State.setPc_config (w : Word) : (s.setPc w).config = s.config := rfl
@[simp] theorem State.setPc_v (w : Word) : (s.setPc w).v = s.v := rfl
@[simp] theorem State.setPc_i (w : Word) : (s.setPc w).i = s.i := rfl
@[simp] theorem State.setPc_pc (w : Word) : (s.setPc w).pc = w := rfl
@[simp] theorem State.setPc_stack (w : Word) : (s.setPc w).stack = s.stack := rfl
@[simp] theorem State.setPc_sp (w : Word) : (s.setPc w).sp = s.sp := rfl
@[simp] theorem State.setPc_dt (w : Word) : (s.setPc w).dt = s.dt := rfl
@[simp] theorem State.setPc_st (w : Word) : (s.setPc w).st = s.st := rfl
@[simp] theorem State.setPc_fb (w : Word) : (s.setPc w).fb = s.fb := rfl
@[simp] theorem State.setPc_keys (w : Word) : (s.setPc w).keys = s.keys := rfl
@[simp] theorem State.setPc_latch (w : Word) : (s.setPc w).latch = s.latch := rfl
@[simp] theorem State.setPc_mode (w : Word) : (s.setPc w).mode = s.mode := rfl
@[simp] theorem State.setPc_mem (w : Word) : (s.setPc w).mem = s.mem := rfl
@[simp] theorem State.setPc_rngDraws (w : Word) : (s.setPc w).rngDraws = s.rngDraws := rfl
@[simp] theorem State.setPc_tNs (w : Word) : (s.setPc w).tNs = s.tNs := rfl
@[simp] theorem State.setPc_cpuDone (w : Word) : (s.setPc w).cpuDone = s.cpuDone := rfl
@[simp] theorem State.setPc_tmrDone (w : Word) : (s.setPc w).tmrDone = s.tmrDone := rfl
@[simp] theorem State.getV_setPc (r : Nibble) (w : Word) : (s.setPc w).getV r = s.getV r := rfl
@[simp] theorem State.byteAt_setPc (adr : Nat) (w : Word) : (s.setPc w).byteAt adr = s.byteAt adr := rfl

/-! ### setDt -/

@[simp] theorem State.setDt_config (b : Byte) : (s.setDt b).config = s.config := rfl
@[simp] theorem State.setDt_v (b : Byte) : (s.setDt b).v = s.v := rfl
@[simp] theorem State.setDt_i (b : Byte) : (s.setDt b).i = s.i := rfl
@[simp] theorem State.setDt_pc (b : Byte) : (s.setDt b).pc = s.pc := rfl
@[simp] theorem State.setDt_stack (b : Byte) : (s.setDt b).stack = s.stack := rfl
@[simp] theorem State.setDt_sp (b : Byte) : (s.setDt b).sp = s.sp := rfl
@[simp] theorem State.setDt_dt (b : Byte) : (s.setDt b).dt = b := rfl
@[simp] theorem State.setDt_st (b : Byte) : (s.setDt b).st = s.st := rfl
@[simp] theorem State.setDt_fb (b : Byte) : (s.setDt b).fb = s.fb := rfl
@[simp] theorem State.setDt_keys (b : Byte) : (s.setDt b).keys = s.keys := rfl
@[simp] theorem State.setDt_latch (b : Byte) : (s.setDt b).latch = s.latch := rfl
@[simp] theorem State.setDt_mode (b : Byte) : (s.setDt b).mode = s.mode := rfl
@[simp] theorem State.setDt_mem (b : Byte) : (s.setDt b).mem = s.mem := rfl
@[simp] theorem State.setDt_rngDraws (b : Byte) : (s.setDt b).rngDraws = s.rngDraws := rfl
@[simp] theorem State.setDt_tNs (b : Byte) : (s.setDt b).tNs = s.tNs := rfl
@[simp] theorem State.setDt_cpuDone (b : Byte) : (s.setDt b).cpuDone = s.cpuDone := rfl
@[simp] theorem State.setDt_tmrDone (b : Byte) : (s.setDt b).tmrDone = s.tmrDone := rfl
@[simp] theorem State.getV_setDt (r : Nibble) (b : Byte) : (s.setDt b).getV r = s.getV r := rfl
@[simp] theorem State.byteAt_setDt (adr : Nat) (b : Byte) : (s.setDt b).byteAt adr = s.byteAt adr := rfl

/-! ### setSt -/

@[simp] theorem State.setSt_config (b : Byte) : (s.setSt b).config = s.config := rfl
@[simp] theorem State.setSt_v (b : Byte) : (s.setSt b).v = s.v := rfl
@[simp] theorem State.setSt_i (b : Byte) : (s.setSt b).i = s.i := rfl
@[simp] theorem State.setSt_pc (b : Byte) : (s.setSt b).pc = s.pc := rfl
@[simp] theorem State.setSt_stack (b : Byte) : (s.setSt b).stack = s.stack := rfl
@[simp] theorem State.setSt_sp (b : Byte) : (s.setSt b).sp = s.sp := rfl
@[simp] theorem State.setSt_dt (b : Byte) : (s.setSt b).dt = s.dt := rfl
@[simp] theorem State.setSt_st (b : Byte) : (s.setSt b).st = b := rfl
@[simp] theorem State.setSt_fb (b : Byte) : (s.setSt b).fb = s.fb := rfl
@[simp] theorem State.setSt_keys (b : Byte) : (s.setSt b).keys = s.keys := rfl
@[simp] theorem State.setSt_latch (b : Byte) : (s.setSt b).latch = s.latch := rfl
@[simp] theorem State.setSt_mode (b : Byte) : (s.setSt b).mode = s.mode := rfl
@[simp] theorem State.setSt_mem (b : Byte) : (s.setSt b).mem = s.mem := rfl
@[simp] theorem State.setSt_rngDraws (b : Byte) : (s.setSt b).rngDraws = s.rngDraws := rfl
@[simp] theorem State.setSt_tNs (b : Byte) : (s.setSt b).tNs = s.tNs := rfl
@[simp] theorem State.setSt_cpuDone (b : Byte) : (s.setSt b).cpuDone = s.cpuDone := rfl
@[simp] theorem State.setSt_tmrDone (b : Byte) : (s.setSt b).tmrDone = s.tmrDone := rfl
@[simp] theorem State.getV_setSt (r : Nibble) (b : Byte) : (s.setSt b).getV r = s.getV r := rfl
@[simp] theorem State.byteAt_setSt (adr : Nat) (b : Byte) : (s.setSt b).byteAt adr = s.byteAt adr := rfl

/-! ### setFb -/

@[simp] theorem State.setFb_config (f : Framebuffer) : (s.setFb f).config = s.config := rfl
@[simp] theorem State.setFb_v (f : Framebuffer) : (s.setFb f).v = s.v := rfl
@[simp] theorem State.setFb_i (f : Framebuffer) : (s.setFb f).i = s.i := rfl
@[simp] theorem State.setFb_pc (f : Framebuffer) : (s.setFb f).pc = s.pc := rfl
@[simp] theorem State.setFb_stack (f : Framebuffer) : (s.setFb f).stack = s.stack := rfl
@[simp] theorem State.setFb_sp (f : Framebuffer) : (s.setFb f).sp = s.sp := rfl
@[simp] theorem State.setFb_dt (f : Framebuffer) : (s.setFb f).dt = s.dt := rfl
@[simp] theorem State.setFb_st (f : Framebuffer) : (s.setFb f).st = s.st := rfl
@[simp] theorem State.setFb_fb (f : Framebuffer) : (s.setFb f).fb = f := rfl
@[simp] theorem State.setFb_keys (f : Framebuffer) : (s.setFb f).keys = s.keys := rfl
@[simp] theorem State.setFb_latch (f : Framebuffer) : (s.setFb f).latch = s.latch := rfl
@[simp] theorem State.setFb_mode (f : Framebuffer) : (s.setFb f).mode = s.mode := rfl
@[simp] theorem State.setFb_mem (f : Framebuffer) : (s.setFb f).mem = s.mem := rfl
@[simp] theorem State.setFb_rngDraws (f : Framebuffer) : (s.setFb f).rngDraws = s.rngDraws := rfl
@[simp] theorem State.setFb_tNs (f : Framebuffer) : (s.setFb f).tNs = s.tNs := rfl
@[simp] theorem State.setFb_cpuDone (f : Framebuffer) : (s.setFb f).cpuDone = s.cpuDone := rfl
@[simp] theorem State.setFb_tmrDone (f : Framebuffer) : (s.setFb f).tmrDone = s.tmrDone := rfl
@[simp] theorem State.getV_setFb (r : Nibble) (f : Framebuffer) : (s.setFb f).getV r = s.getV r := rfl
@[simp] theorem State.byteAt_setFb (adr : Nat) (f : Framebuffer) : (s.setFb f).byteAt adr = s.byteAt adr := rfl

/-! ### setKeys -/

@[simp] theorem State.setKeys_config (k : Vector Bool 16) : (s.setKeys k).config = s.config := rfl
@[simp] theorem State.setKeys_v (k : Vector Bool 16) : (s.setKeys k).v = s.v := rfl
@[simp] theorem State.setKeys_i (k : Vector Bool 16) : (s.setKeys k).i = s.i := rfl
@[simp] theorem State.setKeys_pc (k : Vector Bool 16) : (s.setKeys k).pc = s.pc := rfl
@[simp] theorem State.setKeys_stack (k : Vector Bool 16) : (s.setKeys k).stack = s.stack := rfl
@[simp] theorem State.setKeys_sp (k : Vector Bool 16) : (s.setKeys k).sp = s.sp := rfl
@[simp] theorem State.setKeys_dt (k : Vector Bool 16) : (s.setKeys k).dt = s.dt := rfl
@[simp] theorem State.setKeys_st (k : Vector Bool 16) : (s.setKeys k).st = s.st := rfl
@[simp] theorem State.setKeys_fb (k : Vector Bool 16) : (s.setKeys k).fb = s.fb := rfl
@[simp] theorem State.setKeys_keys (k : Vector Bool 16) : (s.setKeys k).keys = k := rfl
@[simp] theorem State.setKeys_latch (k : Vector Bool 16) : (s.setKeys k).latch = s.latch := rfl
@[simp] theorem State.setKeys_mode (k : Vector Bool 16) : (s.setKeys k).mode = s.mode := rfl
@[simp] theorem State.setKeys_mem (k : Vector Bool 16) : (s.setKeys k).mem = s.mem := rfl
@[simp] theorem State.setKeys_rngDraws (k : Vector Bool 16) : (s.setKeys k).rngDraws = s.rngDraws := rfl
@[simp] theorem State.setKeys_tNs (k : Vector Bool 16) : (s.setKeys k).tNs = s.tNs := rfl
@[simp] theorem State.setKeys_cpuDone (k : Vector Bool 16) : (s.setKeys k).cpuDone = s.cpuDone := rfl
@[simp] theorem State.setKeys_tmrDone (k : Vector Bool 16) : (s.setKeys k).tmrDone = s.tmrDone := rfl
@[simp] theorem State.getV_setKeys (r : Nibble) (k : Vector Bool 16) : (s.setKeys k).getV r = s.getV r := rfl
@[simp] theorem State.byteAt_setKeys (adr : Nat) (k : Vector Bool 16) : (s.setKeys k).byteAt adr = s.byteAt adr := rfl

/-! ### setLatch -/

@[simp] theorem State.setLatch_config (l : Option Nibble) : (s.setLatch l).config = s.config := rfl
@[simp] theorem State.setLatch_v (l : Option Nibble) : (s.setLatch l).v = s.v := rfl
@[simp] theorem State.setLatch_i (l : Option Nibble) : (s.setLatch l).i = s.i := rfl
@[simp] theorem State.setLatch_pc (l : Option Nibble) : (s.setLatch l).pc = s.pc := rfl
@[simp] theorem State.setLatch_stack (l : Option Nibble) : (s.setLatch l).stack = s.stack := rfl
@[simp] theorem State.setLatch_sp (l : Option Nibble) : (s.setLatch l).sp = s.sp := rfl
@[simp] theorem State.setLatch_dt (l : Option Nibble) : (s.setLatch l).dt = s.dt := rfl
@[simp] theorem State.setLatch_st (l : Option Nibble) : (s.setLatch l).st = s.st := rfl
@[simp] theorem State.setLatch_fb (l : Option Nibble) : (s.setLatch l).fb = s.fb := rfl
@[simp] theorem State.setLatch_keys (l : Option Nibble) : (s.setLatch l).keys = s.keys := rfl
@[simp] theorem State.setLatch_latch (l : Option Nibble) : (s.setLatch l).latch = l := rfl
@[simp] theorem State.setLatch_mode (l : Option Nibble) : (s.setLatch l).mode = s.mode := rfl
@[simp] theorem State.setLatch_mem (l : Option Nibble) : (s.setLatch l).mem = s.mem := rfl
@[simp] theorem State.setLatch_rngDraws (l : Option Nibble) : (s.setLatch l).rngDraws = s.rngDraws := rfl
@[simp] theorem State.setLatch_tNs (l : Option Nibble) : (s.setLatch l).tNs = s.tNs := rfl
@[simp] theorem State.setLatch_cpuDone (l : Option Nibble) : (s.setLatch l).cpuDone = s.cpuDone := rfl
@[simp] theorem State.setLatch_tmrDone (l : Option Nibble) : (s.setLatch l).tmrDone = s.tmrDone := rfl
@[simp] theorem State.getV_setLatch (r : Nibble) (l : Option Nibble) : (s.setLatch l).getV r = s.getV r := rfl
@[simp] theorem State.byteAt_setLatch (adr : Nat) (l : Option Nibble) : (s.setLatch l).byteAt adr = s.byteAt adr := rfl

/-! ### setMode -/

@[simp] theorem State.setMode_config (m : Mode) : (s.setMode m).config = s.config := rfl
@[simp] theorem State.setMode_v (m : Mode) : (s.setMode m).v = s.v := rfl
@[simp] theorem State.setMode_i (m : Mode) : (s.setMode m).i = s.i := rfl
@[simp] theorem State.setMode_pc (m : Mode) : (s.setMode m).pc = s.pc := rfl
@[simp] theorem State.setMode_stack (m : Mode) : (s.setMode m).stack = s.stack := rfl
@[simp] theorem State.setMode_sp (m : Mode) : (s.setMode m).sp = s.sp := rfl
@[simp] theorem State.setMode_dt (m : Mode) : (s.setMode m).dt = s.dt := rfl
@[simp] theorem State.setMode_st (m : Mode) : (s.setMode m).st = s.st := rfl
@[simp] theorem State.setMode_fb (m : Mode) : (s.setMode m).fb = s.fb := rfl
@[simp] theorem State.setMode_keys (m : Mode) : (s.setMode m).keys = s.keys := rfl
@[simp] theorem State.setMode_latch (m : Mode) : (s.setMode m).latch = s.latch := rfl
@[simp] theorem State.setMode_mode (m : Mode) : (s.setMode m).mode = m := rfl
@[simp] theorem State.setMode_mem (m : Mode) : (s.setMode m).mem = s.mem := rfl
@[simp] theorem State.setMode_rngDraws (m : Mode) : (s.setMode m).rngDraws = s.rngDraws := rfl
@[simp] theorem State.setMode_tNs (m : Mode) : (s.setMode m).tNs = s.tNs := rfl
@[simp] theorem State.setMode_cpuDone (m : Mode) : (s.setMode m).cpuDone = s.cpuDone := rfl
@[simp] theorem State.setMode_tmrDone (m : Mode) : (s.setMode m).tmrDone = s.tmrDone := rfl
@[simp] theorem State.getV_setMode (r : Nibble) (m : Mode) : (s.setMode m).getV r = s.getV r := rfl
@[simp] theorem State.byteAt_setMode (adr : Nat) (m : Mode) : (s.setMode m).byteAt adr = s.byteAt adr := rfl

/-! ### rngAdvance -/

@[simp] theorem State.rngAdvance_config : (s.rngAdvance).config = s.config := rfl
@[simp] theorem State.rngAdvance_v : (s.rngAdvance).v = s.v := rfl
@[simp] theorem State.rngAdvance_i : (s.rngAdvance).i = s.i := rfl
@[simp] theorem State.rngAdvance_pc : (s.rngAdvance).pc = s.pc := rfl
@[simp] theorem State.rngAdvance_stack : (s.rngAdvance).stack = s.stack := rfl
@[simp] theorem State.rngAdvance_sp : (s.rngAdvance).sp = s.sp := rfl
@[simp] theorem State.rngAdvance_dt : (s.rngAdvance).dt = s.dt := rfl
@[simp] theorem State.rngAdvance_st : (s.rngAdvance).st = s.st := rfl
@[simp] theorem State.rngAdvance_fb : (s.rngAdvance).fb = s.fb := rfl
@[simp] theorem State.rngAdvance_keys : (s.rngAdvance).keys = s.keys := rfl
@[simp] theorem State.rngAdvance_latch : (s.rngAdvance).latch = s.latch := rfl
@[simp] theorem State.rngAdvance_mode : (s.rngAdvance).mode = s.mode := rfl
@[simp] theorem State.rngAdvance_mem : (s.rngAdvance).mem = s.mem := rfl
@[simp] theorem State.rngAdvance_rngDraws : (s.rngAdvance).rngDraws = s.rngDraws + 1 := rfl
@[simp] theorem State.rngAdvance_tNs : (s.rngAdvance).tNs = s.tNs := rfl
@[simp] theorem State.rngAdvance_cpuDone : (s.rngAdvance).cpuDone = s.cpuDone := rfl
@[simp] theorem State.rngAdvance_tmrDone : (s.rngAdvance).tmrDone = s.tmrDone := rfl
@[simp] theorem State.getV_rngAdvance (r : Nibble) : (s.rngAdvance).getV r = s.getV r := rfl
@[simp] theorem State.byteAt_rngAdvance (adr : Nat) : (s.rngAdvance).byteAt adr = s.byteAt adr := rfl

/-! ### putByte -/

@[simp] theorem State.putByte_config (a : Nat) (b : Byte) : (s.putByte a b).config = s.config := rfl
@[simp] theorem State.putByte_v (a : Nat) (b : Byte) : (s.putByte a b).v = s.v := rfl
@[simp] theorem State.putByte_i (a : Nat) (b : Byte) : (s.putByte a b).i = s.i := rfl
@[simp] theorem State.putByte_pc (a : Nat) (b : Byte) : (s.putByte a b).pc = s.pc := rfl
@[simp] theorem State.putByte_stack (a : Nat) (b : Byte) : (s.putByte a b).stack = s.stack := rfl
@[simp] theorem State.putByte_sp (a : Nat) (b : Byte) : (s.putByte a b).sp = s.sp := rfl
@[simp] theorem State.putByte_dt (a : Nat) (b : Byte) : (s.putByte a b).dt = s.dt := rfl
@[simp] theorem State.putByte_st (a : Nat) (b : Byte) : (s.putByte a b).st = s.st := rfl
@[simp] theorem State.putByte_fb (a : Nat) (b : Byte) : (s.putByte a b).fb = s.fb := rfl
@[simp] theorem State.putByte_keys (a : Nat) (b : Byte) : (s.putByte a b).keys = s.keys := rfl
@[simp] theorem State.putByte_latch (a : Nat) (b : Byte) : (s.putByte a b).latch = s.latch := rfl
@[simp] theorem State.putByte_mode (a : Nat) (b : Byte) : (s.putByte a b).mode = s.mode := rfl
@[simp] theorem State.putByte_mem (a : Nat) (b : Byte) : (s.putByte a b).mem = Memory.write s.config s.mem a b := rfl
@[simp] theorem State.putByte_rngDraws (a : Nat) (b : Byte) : (s.putByte a b).rngDraws = s.rngDraws := rfl
@[simp] theorem State.putByte_tNs (a : Nat) (b : Byte) : (s.putByte a b).tNs = s.tNs := rfl
@[simp] theorem State.putByte_cpuDone (a : Nat) (b : Byte) : (s.putByte a b).cpuDone = s.cpuDone := rfl
@[simp] theorem State.putByte_tmrDone (a : Nat) (b : Byte) : (s.putByte a b).tmrDone = s.tmrDone := rfl
@[simp] theorem State.getV_putByte (r : Nibble) (a : Nat) (b : Byte) : (s.putByte a b).getV r = s.getV r := rfl

/-! ### countStep -/

@[simp] theorem State.countStep_config : (s.countStep).config = s.config := rfl
@[simp] theorem State.countStep_v : (s.countStep).v = s.v := rfl
@[simp] theorem State.countStep_i : (s.countStep).i = s.i := rfl
@[simp] theorem State.countStep_pc : (s.countStep).pc = s.pc := rfl
@[simp] theorem State.countStep_stack : (s.countStep).stack = s.stack := rfl
@[simp] theorem State.countStep_sp : (s.countStep).sp = s.sp := rfl
@[simp] theorem State.countStep_dt : (s.countStep).dt = s.dt := rfl
@[simp] theorem State.countStep_st : (s.countStep).st = s.st := rfl
@[simp] theorem State.countStep_fb : (s.countStep).fb = s.fb := rfl
@[simp] theorem State.countStep_keys : (s.countStep).keys = s.keys := rfl
@[simp] theorem State.countStep_latch : (s.countStep).latch = s.latch := rfl
@[simp] theorem State.countStep_mode : (s.countStep).mode = s.mode := rfl
@[simp] theorem State.countStep_mem : (s.countStep).mem = s.mem := rfl
@[simp] theorem State.countStep_rngDraws : (s.countStep).rngDraws = s.rngDraws := rfl
@[simp] theorem State.countStep_tNs : (s.countStep).tNs = s.tNs := rfl
@[simp] theorem State.countStep_cpuDone : (s.countStep).cpuDone = s.cpuDone + 1 := rfl
@[simp] theorem State.countStep_tmrDone : (s.countStep).tmrDone = s.tmrDone := rfl
@[simp] theorem State.getV_countStep (r : Nibble) : (s.countStep).getV r = s.getV r := rfl
@[simp] theorem State.byteAt_countStep (adr : Nat) : (s.countStep).byteAt adr = s.byteAt adr := rfl

/-! ### addTime -/

@[simp] theorem State.addTime_config (n : Nat) : (s.addTime n).config = s.config := rfl
@[simp] theorem State.addTime_v (n : Nat) : (s.addTime n).v = s.v := rfl
@[simp] theorem State.addTime_i (n : Nat) : (s.addTime n).i = s.i := rfl
@[simp] theorem State.addTime_pc (n : Nat) : (s.addTime n).pc = s.pc := rfl
@[simp] theorem State.addTime_stack (n : Nat) : (s.addTime n).stack = s.stack := rfl
@[simp] theorem State.addTime_sp (n : Nat) : (s.addTime n).sp = s.sp := rfl
@[simp] theorem State.addTime_dt (n : Nat) : (s.addTime n).dt = s.dt := rfl
@[simp] theorem State.addTime_st (n : Nat) : (s.addTime n).st = s.st := rfl
@[simp] theorem State.addTime_fb (n : Nat) : (s.addTime n).fb = s.fb := rfl
@[simp] theorem State.addTime_keys (n : Nat) : (s.addTime n).keys = s.keys := rfl
@[simp] theorem State.addTime_latch (n : Nat) : (s.addTime n).latch = s.latch := rfl
@[simp] theorem State.addTime_mode (n : Nat) : (s.addTime n).mode = s.mode := rfl
@[simp] theorem State.addTime_mem (n : Nat) : (s.addTime n).mem = s.mem := rfl
@[simp] theorem State.addTime_rngDraws (n : Nat) : (s.addTime n).rngDraws = s.rngDraws := rfl
@[simp] theorem State.addTime_tNs (n : Nat) : (s.addTime n).tNs = s.tNs + n := rfl
@[simp] theorem State.addTime_cpuDone (n : Nat) : (s.addTime n).cpuDone = s.cpuDone := rfl
@[simp] theorem State.addTime_tmrDone (n : Nat) : (s.addTime n).tmrDone = s.tmrDone := rfl
@[simp] theorem State.getV_addTime (r : Nibble) (n : Nat) : (s.addTime n).getV r = s.getV r := rfl
@[simp] theorem State.byteAt_addTime (adr : Nat) (n : Nat) : (s.addTime n).byteAt adr = s.byteAt adr := rfl

/-! ### Reads of registers -/

/-- A register reads as the value last written to it, every other register as before. -/
theorem State.getV_setV (x r : Nibble) (b : Byte) : (s.setV x b).getV r = if x = r then b else s.getV r := by
  simp only [State.getV, State.setV, Vector.getElem_set, BitVec.toNat_inj]

@[simp] theorem State.getV_setV_same (x : Nibble) (b : Byte) : (s.setV x b).getV x = b := by
  simp [State.getV_setV]

theorem State.getV_setV_ne {x r : Nibble} (h : x ≠ r) (b : Byte) : (s.setV x b).getV r = s.getV r := by
  simp [State.getV_setV, h]

/-! ### The composed updates, in terms of the ones above -/

@[simp] theorem State.raise_eq (f : FaultRecord) : s.raise f = s.setMode (.halted f) := rfl

@[simp] theorem State.raiseIn_eq (i : Instr) (k : ErrorKind) (d : Detail) :
    s.raiseIn i k d =
      s.setMode (.halted { kind := k, addr := s.pc - 2, word := some (encode i), detail := d }) := rfl

@[simp] theorem State.raiseFetch_eq (a : Nat) :
    s.raiseFetch a =
      s.setMode (.halted { kind := .addressFault, addr := s.pc, word := none, detail := .access a .fetch }) := rfl

@[simp] theorem State.setFlag_eq (c : Bool) : s.setFlag c = s.setV 0xF (flagByte c) := rfl

@[simp] theorem State.writeWithFlag_eq (x : Nibble) (b : Byte) (c : Bool) :
    s.writeWithFlag x b c = (s.setV x b).setV 0xF (flagByte c) := rfl

/-- R130 law 3: VF ends as the flag; any other register holds the result if it is the destination. -/
theorem State.getV_writeWithFlag (x r : Nibble) (b : Byte) (c : Bool) :
    (s.writeWithFlag x b c).getV r = if r = 0xF then flagByte c else if x = r then b else s.getV r := by
  by_cases h : r = 0xF <;> simp [State.getV_setV, h, eq_comm]

/-- R118: a skip changes pc alone. -/
theorem State.skipIf_eq (c : Bool) : s.skipIf c = s.setPc (if c then s.pc + 2 else s.pc) := by
  cases c <;> rfl

theorem State.isHalted_iff : s.isHalted = true ↔ ∃ f, s.mode = .halted f := by
  cases h : s.mode <;> simp [State.isHalted, h]

theorem State.isHalted_false_iff : s.isHalted = false ↔ ∀ f, s.mode ≠ .halted f := by
  cases h : s.mode <;> simp [State.isHalted, h]

/-- R222, R226: a call's result is the record of a halted state and Ok in any other. -/
theorem State.result_halted {s : State} {f : FaultRecord} (h : s.mode = .halted f) : s.result = .error f := by
  simp [State.result, h]

end Sys2Proof.Machine
end

