-- ==== Sys2Proof/Laws/Ops.lean ====
section
/-!
SUPPORT. One lemma per shared operation, saying all it can do: the access checks, the stack, multi-byte stores and loads,
the framebuffer, the waiting step, the timer tick, the start of a step.
-/

namespace Sys2Proof.Machine

/-! ## Access checks (spec/20_memory.md R56, R57) -/

/-- No address faults: every one of the `n` addresses is fit for the access. -/
theorem lowestFault_eq_none {p : Nat → Bool} {base n : Nat} :
    lowestFault p base n = none ↔ ∀ k < n, p (base + k) = false := by
  simp [lowestFault, List.find?_eq_none]

/-- The address reported is one of the `n`, faults, and no lower one does. -/
theorem lowestFault_eq_some {p : Nat → Bool} {base n a : Nat} :
    lowestFault p base n = some a ↔
      (base ≤ a ∧ a < base + n) ∧ p a = true ∧ ∀ b, base ≤ b → b < a → p b = false := by
  unfold lowestFault
  induction n generalizing base with
  | zero => simp
  | succ n ih =>
    have hmap : ((List.range (n + 1)).map fun k => base + k) =
        base :: ((List.range n).map fun k => base + 1 + k) := by
      rw [List.range_succ_eq_map]
      simp [Function.comp_def, Nat.add_assoc, Nat.add_comm 1]
    rw [hmap, List.find?_cons]
    by_cases hp : p base = true
    · rw [hp]
      simp only [Option.some.injEq]
      constructor
      · rintro rfl; exact ⟨⟨le_rfl, by omega⟩, hp, fun b h1 h2 => by omega⟩
      · rintro ⟨⟨h1, h2⟩, h3, h4⟩
        rcases Nat.lt_or_ge base a with h | h
        · simp [h4 base le_rfl h] at hp
        · omega
    · rw [Bool.not_eq_true] at hp
      rw [hp]
      simp only [ih]
      constructor
      · rintro ⟨⟨h1, h2⟩, h3, h4⟩
        refine ⟨⟨by omega, by omega⟩, h3, fun b hb1 hb2 => ?_⟩
        rcases Nat.lt_or_ge base b with h | h
        · exact h4 b (by omega) hb2
        · rwa [show b = base by omega]
      · rintro ⟨⟨h1, h2⟩, h3, h4⟩
        have : base ≠ a := by rintro rfl; simp [hp] at h3
        exact ⟨⟨by omega, by omega⟩, h3, fun b hb1 hb2 => h4 b (by omega) hb2⟩

/-- A read of `n` bytes passes when there is none or the last is at most 0xFFF. -/
theorem lowestFault_read_none {base n : Nat} :
    lowestFault readFaults base n = none ↔ n = 0 ∨ base + n ≤ 0x1000 := by
  rw [lowestFault_eq_none]
  simp only [readFaults, decide_eq_false_iff_not, Nat.not_lt]
  constructor
  · intro h
    rcases Nat.eq_zero_or_pos n with h0 | h0
    · exact .inl h0
    · have := h (n - 1) (by omega); omega
  · rintro (rfl | h) k hk <;> omega

/-- A read that faults reports the first address above 0xFFF. -/
theorem lowestFault_read_some {base n a : Nat} (h : lowestFault readFaults base n = some a) :
    a = max base 0x1000 ∧ 0 < n ∧ 0x1000 < base + n := by
  obtain ⟨⟨h1, h2⟩, h3, h4⟩ := lowestFault_eq_some.1 h
  simp only [readFaults, decide_eq_true_eq, decide_eq_false_iff_not] at h3 h4
  rcases Nat.lt_or_ge base a with hb | hb
  · have := h4 (a - 1) (by omega) (by omega); omega
  · omega

/-- A store of `n` bytes passes when there is none or all lie in 0x050..0xFFF. -/
theorem lowestFault_write_none {base n : Nat} :
    lowestFault writeFaults base n = none ↔ n = 0 ∨ (0x50 ≤ base ∧ base + n ≤ 0x1000) := by
  rw [lowestFault_eq_none]
  simp only [writeFaults, Bool.or_eq_false_iff, decide_eq_false_iff_not, Nat.not_lt]
  constructor
  · intro h
    rcases Nat.eq_zero_or_pos n with h0 | h0
    · exact .inl h0
    · have := h (n - 1) (by omega); have := h 0 h0; omega
  · rintro (rfl | h) k hk <;> omega

/-- A store that faults reports its first address in the font region, or else the first above 0xFFF. -/
theorem lowestFault_write_some {base n a : Nat} (h : lowestFault writeFaults base n = some a) :
    0 < n ∧ ((base ≤ 0x4F ∧ a = base) ∨ (0x4F < base ∧ 0x1000 < base + n ∧ a = max base 0x1000)) := by
  obtain ⟨⟨h1, h2⟩, h3, h4⟩ := lowestFault_eq_some.1 h
  simp only [writeFaults, Bool.or_eq_true, Bool.or_eq_false_iff, decide_eq_true_eq,
    decide_eq_false_iff_not] at h3 h4
  refine ⟨by omega, ?_⟩
  rcases Nat.lt_or_ge base a with hb | hb
  · have := h4 (a - 1) (by omega) (by omega); have := h4 base (by omega) hb; omega
  · omega

/-! ## The stack (spec/10_state.md R26) -/

/-- A push answers exactly when SP < 16: the entry at SP is written, SP rises by one, nothing else changes. -/
theorem State.push_eq_some {s t : State} {w : Word} (h : s.push w = some t) :
    ∃ h16 : s.sp.val < 16, t.sp.val = s.sp.val + 1 ∧ t.stack = s.stack.set s.sp.val w h16 ∧
      t = { s with stack := t.stack, sp := t.sp } := by
  unfold State.push at h
  split at h
  · rename_i hs; cases h; exact ⟨hs, rfl, rfl, rfl⟩
  · cases h

theorem State.push_eq_none {s : State} {w : Word} : s.push w = none ↔ s.sp.val = 16 := by
  unfold State.push
  have := s.sp.isLt
  split <;> simp <;> omega

/-- A pop answers exactly when SP > 0: SP falls by one, the entry there is the answer and stays, nothing else changes. -/
theorem State.pop_eq_some {s t : State} {w : Word} (h : s.pop = some (w, t)) :
    s.sp.val = t.sp.val + 1 ∧ s.stack[t.sp.val]? = some w ∧ t = { s with sp := t.sp } := by
  unfold State.pop at h
  split at h
  · cases h
  · rename_i n hn hsp
    cases h
    refine ⟨by simp [hsp], ?_, rfl⟩
    simp only [Vector.getElem?_eq_getElem (show n < 16 by omega)]

theorem State.pop_eq_none {s : State} : s.pop = none ↔ s.sp.val = 0 := by
  unfold State.pop
  split <;> rename_i h <;> simp [h]

/-! ## Bytes in memory -/

@[simp] theorem State.length_bytesFrom (s : State) (base n : Nat) : (s.bytesFrom base n).length = n := by
  simp [State.bytesFrom]

theorem State.getElem_bytesFrom (s : State) (base n k : Nat) (h : k < (s.bytesFrom base n).length) :
    (s.bytesFrom base n)[k] = s.byteAt (base + k) := by
  simp [State.bytesFrom]

/-- A run of stores changes memory alone. -/
theorem State.putBytes_frame (s : State) (base : Nat) (bs : List Byte) :
    s.putBytes base bs = { s with mem := (s.putBytes base bs).mem } := by
  induction bs generalizing s base with
  | nil => rfl
  | cons b rest ih => rw [State.putBytes, ih]; rfl

@[simp] theorem State.putBytes_config (s : State) (base : Nat) (bs : List Byte) :
    (s.putBytes base bs).config = s.config := by rw [State.putBytes_frame]

/-- A run of stores inside the space keeps memory's canonical form. -/
theorem State.wf_putBytes {s : State} (h : Memory.wf s.config s.mem = true) {base : Nat} {bs : List Byte}
    (hb : base + bs.length ≤ memSize) :
    Memory.wf s.config (s.putBytes base bs).mem = true := by
  induction bs generalizing s base with
  | nil => exact h
  | cons b rest ih =>
    simp only [List.length_cons] at hb
    exact ih (s := s.putByte base b) (State.wf_putByte h (by omega) b) (by omega)

/-- A run of stores: its bytes stand from `base` on, ascending, and every other byte reads as before. -/
theorem State.byteAt_putBytes {s : State} (h : Memory.wf s.config s.mem = true) {base : Nat} {bs : List Byte}
    (hb : base + bs.length ≤ memSize) (a : Nat) :
    (s.putBytes base bs).byteAt a =
      if base ≤ a ∧ a < base + bs.length then bs.getD (a - base) 0 else s.byteAt a := by
  induction bs generalizing s base with
  | nil => simp [State.putBytes]
  | cons b rest ih =>
    simp only [List.length_cons] at hb ⊢
    rw [State.putBytes, ih (State.wf_putByte h (by omega) b) (by omega), State.byteAt_putByte h]
    by_cases h1 : base = a
    · subst h1; simp
    · by_cases h2 : base + 1 ≤ a ∧ a < base + 1 + rest.length
      · rw [if_pos h2, if_pos (by omega), show a - base = (a - (base + 1)) + 1 by omega]; rfl
      · rw [if_neg h2, if_neg h1, if_neg (by omega)]

/-! ## Register blocks (spec/45_index_memory.md R203, R204) -/

@[simp] theorem State.length_regsUpTo (s : State) (x : Nibble) : (s.regsUpTo x).length = x.toNat + 1 := by
  simp [State.regsUpTo]

theorem State.getElem_regsUpTo (s : State) (x : Nibble) (k : Nat) (h : k < (s.regsUpTo x).length) :
    (s.regsUpTo x)[k] = s.getV (BitVec.ofNat 4 k) := by
  simp [State.regsUpTo]

/-- A block load changes the registers alone. -/
theorem State.loadRegs_frame (s : State) (k : Nat) (bs : List Byte) :
    s.loadRegs k bs = { s with v := (s.loadRegs k bs).v } := by
  induction bs generalizing s k with
  | nil => rfl
  | cons b rest ih => rw [State.loadRegs, ih]; rfl

/-- A block load: register V[k + j] holds byte j, every other register is as before. -/
theorem State.getV_loadRegs (s : State) {k : Nat} {bs : List Byte} (hk : k + bs.length ≤ 16) (r : Nibble) :
    (s.loadRegs k bs).getV r =
      if k ≤ r.toNat ∧ r.toNat < k + bs.length then bs.getD (r.toNat - k) 0 else s.getV r := by
  induction bs generalizing s k with
  | nil => simp [State.loadRegs]
  | cons b rest ih =>
    simp only [List.length_cons] at hk ⊢
    rw [State.loadRegs, ih _ (by omega), State.getV_setV]
    have hr : BitVec.ofNat 4 k = r ↔ k = r.toNat := by
      rw [← BitVec.toNat_inj, BitVec.toNat_ofNat, Nat.mod_eq_of_lt (by omega)]
    simp only [hr]
    by_cases h1 : k = r.toNat
    · rw [if_neg (by omega), if_pos h1, if_pos (by omega), show r.toNat - k = 0 by omega]; rfl
    · by_cases h2 : k + 1 ≤ r.toNat ∧ r.toNat < k + 1 + rest.length
      · rw [if_pos h2, if_pos (by omega), show r.toNat - k = (r.toNat - (k + 1)) + 1 by omega]; rfl
      · rw [if_neg h2, if_neg h1, if_neg (by omega)]

/-! ## Digits (spec/43_display.md R165, spec/44_input_timer.md R180) -/

theorem asDigit_eq_none {b : Byte} : asDigit b = none ↔ 0xF < b.toNat := by
  unfold asDigit; split <;> simp <;> omega

/-- A value of at most 0x0F is the digit itself. -/
theorem asDigit_eq_some {b : Byte} {d : Nibble} (h : asDigit b = some d) : d.toNat = b.toNat ∧ b.toNat ≤ 0xF := by
  unfold asDigit at h
  split at h
  · rename_i hb; cases h; exact ⟨by rw [BitVec.toNat_setWidth]; omega, hb⟩
  · cases h

/-! ## The framebuffer (spec/43_display.md R160) -/

/-- Two coordinates name one pixel exactly when they agree modulo 64 and modulo 32. -/
theorem Framebuffer.pixel_setPixel (f : Framebuffer) (x y x' y' : Nat) (b : Bool) :
    Framebuffer.pixel (Framebuffer.setPixel f x y b) x' y' =
      if x % 64 = x' % 64 ∧ y % 32 = y' % 32 then b else Framebuffer.pixel f x' y' := by
  unfold Framebuffer.pixel Framebuffer.setPixel
  by_cases hy : y % 32 = y' % 32
  · by_cases hx : x % 64 = x' % 64
    · simp [hy, hx]
    · simp [hy, hx, Vector.getElem_set_ne]
  · simp [hy, Vector.getElem_set_ne]

@[simp] theorem Framebuffer.pixel_clear (x y : Nat) : Framebuffer.pixel Framebuffer.clear x y = false := by
  simp [Framebuffer.pixel, Framebuffer.clear]

/-- Framebuffers that agree at every pixel are equal. -/
theorem Framebuffer.ext_pixel {f g : Framebuffer}
    (h : ∀ c < 64, ∀ r < 32, Framebuffer.pixel f c r = Framebuffer.pixel g c r) : f = g := by
  apply Vector.ext
  intro r hr
  apply Vector.ext
  intro c hc
  have := h c hc r hr
  simpa [Framebuffer.pixel, Nat.mod_eq_of_lt hc, Nat.mod_eq_of_lt hr] using this

/-! ## The waiting step and the timers -/

/-- R183: all a waiting step can do. -/
theorem State.waitStep_eq (s : State) (x : Nibble) :
    s.waitStep x = match s.latch with
      | none => s
      | some k => ((s.setLatch none).setV x (k.setWidth 8)).setMode .running := by
  unfold State.waitStep State.pollNewlyPressed
  cases s.latch <;> rfl

/-- R230: a tick takes one off each nonzero timer, unless the core is halted. -/
theorem State.tickTimers_eq {s : State} (h : s.isHalted = false) :
    s.tickTimers = (s.setDt (countDown s.dt)).setSt (countDown s.st) := by simp [State.tickTimers, h]

theorem State.tickTimers_halted {s : State} (h : s.isHalted = true) : s.tickTimers = s := by
  simp [State.tickTimers, h]

theorem countDown_toNat (b : Byte) : (countDown b).toNat = b.toNat - 1 := by
  unfold countDown
  have := b.isLt
  split
  · rw [BitVec.toNat_sub]; simp; omega
  · omega

/-! ## The start of a step (spec/30_encoding.md R91) -/

/-- All the ways a step begins in mode Running. -/
theorem State.fetchDecode_cases (s : State) :
    (∃ a, lowestFault readFaults s.pc.toNat 2 = some a ∧ s.fetchDecode = .over (s.raiseFetch a)) ∨
    (lowestFault readFaults s.pc.toNat 2 = none ∧ decodeWord s.fetchWord = none ∧
      s.fetchDecode = .over ((s.setPc (s.pc + 2)).invalidWord s.fetchWord)) ∨
    (∃ i, lowestFault readFaults s.pc.toNat 2 = none ∧ decodeWord s.fetchWord = some i ∧
      s.fetchDecode = .run i (s.setPc (s.pc + 2))) := by
  unfold State.fetchDecode
  cases h : lowestFault readFaults s.pc.toNat 2 with
  | some a => exact .inl ⟨a, rfl, rfl⟩
  | none =>
    cases h' : decodeWord s.fetchWord with
    | none => exact .inr (.inl ⟨rfl, rfl, rfl⟩)
    | some i => exact .inr (.inr ⟨i, rfl, rfl, rfl⟩)

end Sys2Proof.Machine
end

