-- ==== Sys2Proof/Laws/PerInstr.lean ====
section
/-!
SUPPORT. Facts about every instruction as syntax, one lemma per constructor. Family TableRow: an instruction's word meets
the match and mask of its own row of the opcode table (spec/30_encoding.md R82, R85).
-/

namespace Sys2Proof.Laws.TableRow

/-- The instruction's word, masked by its row's mask, is the row's match. -/
def Statement (i : Instr) : Prop := encode i &&& i.row.mask = i.row.pattern

theorem cls : Statement (.cls) := by unfold Statement; decide

theorem ret : Statement (.ret) := by unfold Statement; decide

theorem jp (nnn : Addr12) : Statement (.jp nnn) := encodeNNN_and _ _

theorem call (nnn : Addr12) : Statement (.call nnn) := encodeNNN_and _ _

theorem seImm (x : Nibble) (kk : Byte) : Statement (.seImm x kk) := encodeXKK_and _ _ _

theorem sneImm (x : Nibble) (kk : Byte) : Statement (.sneImm x kk) := encodeXKK_and _ _ _

theorem seReg (x : Nibble) (y : Nibble) : Statement (.seReg x y) := encodeXY0_and _ _ _ _

theorem ldImm (x : Nibble) (kk : Byte) : Statement (.ldImm x kk) := encodeXKK_and _ _ _

theorem addImm (x : Nibble) (kk : Byte) : Statement (.addImm x kk) := encodeXKK_and _ _ _

theorem ldReg (x : Nibble) (y : Nibble) : Statement (.ldReg x y) := encodeXY0_and _ _ _ _

theorem or (x : Nibble) (y : Nibble) : Statement (.or x y) := encodeXY0_and _ _ _ _

theorem and (x : Nibble) (y : Nibble) : Statement (.and x y) := encodeXY0_and _ _ _ _

theorem xor (x : Nibble) (y : Nibble) : Statement (.xor x y) := encodeXY0_and _ _ _ _

theorem addReg (x : Nibble) (y : Nibble) : Statement (.addReg x y) := encodeXY0_and _ _ _ _

theorem sub (x : Nibble) (y : Nibble) : Statement (.sub x y) := encodeXY0_and _ _ _ _

theorem shr (x : Nibble) (y : Nibble) : Statement (.shr x y) := encodeXY0_and _ _ _ _

theorem subn (x : Nibble) (y : Nibble) : Statement (.subn x y) := encodeXY0_and _ _ _ _

theorem shl (x : Nibble) (y : Nibble) : Statement (.shl x y) := encodeXY0_and _ _ _ _

theorem sneReg (x : Nibble) (y : Nibble) : Statement (.sneReg x y) := encodeXY0_and _ _ _ _

theorem ldI (nnn : Addr12) : Statement (.ldI nnn) := encodeNNN_and _ _

theorem jpV0 (nnn : Addr12) : Statement (.jpV0 nnn) := encodeNNN_and _ _

theorem rnd (x : Nibble) (kk : Byte) : Statement (.rnd x kk) := encodeXKK_and _ _ _

theorem drw (x : Nibble) (y : Nibble) (n : Nibble) : Statement (.drw x y n) := encodeXYN_and _ _ _ _

theorem skp (x : Nibble) : Statement (.skp x) := encodeXFF_and _ _ _

theorem sknp (x : Nibble) : Statement (.sknp x) := encodeXFF_and _ _ _

theorem ldVxDt (x : Nibble) : Statement (.ldVxDt x) := encodeXFF_and _ _ _

theorem ldVxK (x : Nibble) : Statement (.ldVxK x) := encodeXFF_and _ _ _

theorem ldDtVx (x : Nibble) : Statement (.ldDtVx x) := encodeXFF_and _ _ _

theorem ldStVx (x : Nibble) : Statement (.ldStVx x) := encodeXFF_and _ _ _

theorem addIVx (x : Nibble) : Statement (.addIVx x) := encodeXFF_and _ _ _

theorem ldFVx (x : Nibble) : Statement (.ldFVx x) := encodeXFF_and _ _ _

theorem ldBVx (x : Nibble) : Statement (.ldBVx x) := encodeXFF_and _ _ _

theorem ldMemVx (x : Nibble) : Statement (.ldMemVx x) := encodeXFF_and _ _ _

theorem ldVxMem (x : Nibble) : Statement (.ldVxMem x) := encodeXFF_and _ _ _

end Sys2Proof.Laws.TableRow
end

