-- ==== Sys2Proof/Laws/Step.lean ====
section
/-!
SUPPORT. All that an instruction and a step can do, said once: how an instruction ends (`ExecEnd`), which parts of the state
it can change (`ExecFrame`), and the ways a step goes (`step_cases`). Claims about every step go through these.
-/

namespace Sys2Proof.Machine

theorem next_inj {s t : State} (h : (Host.Outcome.next s : Host.Outcome State Fault Refusal) = .next t) : s = t := by
  cases h; rfl

/-- The waiting step writes V, the latch and the mode alone. -/
theorem State.waitStep_frame (s : State) (x : Nibble) :
    s.waitStep x = { s with v := (s.waitStep x).v, latch := (s.waitStep x).latch, mode := (s.waitStep x).mode } := by
  rw [State.waitStep_eq]; cases s.latch <;> rfl

/-- An invalid word changes the mode alone, if that. -/
theorem State.invalidWord_frame (s : State) (w : Word) :
    s.invalidWord w = { s with mode := (s.invalidWord w).mode } := by
  unfold State.invalidWord; cases s.config.invalidOpcodePolicy <;> rfl

/-- How an instruction ends: in one of the errors it can raise (spec/60_exceptions.md R221), in the wait of Fx0A, or with
mode and latch as they were. -/
inductive ExecEnd (i : Instr) (s t : State) : Prop where
  | underflow (h : t = s.raiseIn i .stackUnderflow .none) (hi : i = .ret)
  | overflow (h : t = s.raiseIn i .stackOverflow .none) (hi : ∃ nnn, i = .call nnn)
  | read (a : Nat) (ha : 0xFFF < a) (h : t = s.raiseIn i .addressFault (.access a .read))
      (hi : (∃ x y n, i = .drw x y n) ∨ ∃ x, i = .ldVxMem x)
  | write (a : Nat) (ha : 0xFFF < a ∨ a ≤ 0x4F) (h : t = s.raiseIn i .addressFault (.access a .write))
      (hi : ∃ x, i = .ldBVx x ∨ i = .ldMemVx x)
  | operand (v : Byte) (hv : 0xF < v.toNat) (h : t = s.raiseIn i .operandFault (.operand v))
      (hi : ∃ x, i = .skp x ∨ i = .sknp x ∨ i = .ldFVx x)
  | wait (x : Nibble) (hi : i = .ldVxK x) (h : t.mode = .waitingForKey x)
  | done (hm : t.mode = s.mode) (hl : t.latch = s.latch)

/-- How an instruction ends. -/
theorem exec_end {i : Instr} {s t : State} (h : exec i s = .next t) : ExecEnd i s t := by
  have rd : ∀ {b n a}, lowestFault readFaults b n = some a → 0xFFF < a := fun h => by
    have := (lowestFault_eq_some.1 h).2.1; simpa [readFaults] using this
  have wr : ∀ {b n a}, lowestFault writeFaults b n = some a → (0xFFF < a ∨ a ≤ 0x4F) := fun h => by
    have := (lowestFault_eq_some.1 h).2.1; simpa [writeFaults] using this
  cases i with
  | ret =>
    simp only [exec, execRet] at h
    split at h
    · exact .underflow (next_inj h).symm rfl
    · rename_i hp; have := State.pop_eq_some hp; have h := next_inj h; subst h
      rw [this.2.2]; exact .done rfl rfl
  | call n =>
    simp only [exec, execCall] at h
    split at h
    · exact .overflow (next_inj h).symm ⟨_, rfl⟩
    · rename_i hp; obtain ⟨_, _, _, h3⟩ := State.push_eq_some hp; have h := next_inj h; subst h
      rw [h3]; exact .done rfl rfl
  | drw x y n =>
    simp only [exec, execDrw] at h
    split at h
    · rename_i a ha; exact .read a (rd ha) (next_inj h).symm (.inl ⟨_, _, _, rfl⟩)
    · have h := next_inj h; subst h; exact .done rfl rfl
  | ldVxMem x =>
    simp only [exec, execLdVxMem] at h
    split at h
    · rename_i a ha; exact .read a (rd ha) (next_inj h).symm (.inr ⟨_, rfl⟩)
    · have h := next_inj h; subst h; rw [State.loadRegs_frame]; exact .done rfl rfl
  | ldBVx x =>
    simp only [exec, execLdBVx] at h
    split at h
    · rename_i a ha; exact .write a (wr ha) (next_inj h).symm ⟨_, .inl rfl⟩
    · have h := next_inj h; subst h; rw [State.putBytes_frame]; exact .done rfl rfl
  | ldMemVx x =>
    simp only [exec, execLdMemVx] at h
    split at h
    · rename_i a ha; exact .write a (wr ha) (next_inj h).symm ⟨_, .inr rfl⟩
    · have h := next_inj h; subst h; rw [State.putBytes_frame]; exact .done rfl rfl
  | skp x =>
    simp only [exec, execSkp] at h
    split at h
    · rename_i ha; exact .operand _ (asDigit_eq_none.1 ha) (next_inj h).symm ⟨_, .inl rfl⟩
    · have h := next_inj h; subst h; rw [State.skipIf_eq]; exact .done rfl rfl
  | sknp x =>
    simp only [exec, execSknp] at h
    split at h
    · rename_i ha; exact .operand _ (asDigit_eq_none.1 ha) (next_inj h).symm ⟨_, .inr (.inl rfl)⟩
    · have h := next_inj h; subst h; rw [State.skipIf_eq]; exact .done rfl rfl
  | ldFVx x =>
    simp only [exec, execLdFVx] at h
    split at h
    · rename_i ha; exact .operand _ (asDigit_eq_none.1 ha) (next_inj h).symm ⟨_, .inr (.inr rfl)⟩
    · have h := next_inj h; subst h; exact .done rfl rfl
  | ldVxK x => have h := next_inj h; subst h; exact .wait _ rfl rfl
  | _ => 
    have h := next_inj h; subst h; try rw [State.skipIf_eq]
    exact .done rfl rfl

/-- What an instruction leaves alone, and which instructions are the exceptions. -/
structure ExecFrame (i : Instr) (s t : State) : Prop where
  keys : t.keys = s.keys
  config : t.config = s.config
  tNs : t.tNs = s.tNs
  cpuDone : t.cpuDone = s.cpuDone
  tmrDone : t.tmrDone = s.tmrDone
  rngDraws : t.rngDraws = s.rngDraws ∨ (t.rngDraws = s.rngDraws + 1 ∧ ∃ x kk, i = .rnd x kk)
  fb : t.fb = s.fb ∨ i = .cls ∨ ∃ x y n, i = .drw x y n
  dt : t.dt = s.dt ∨ ∃ x, i = .ldDtVx x
  st : t.st = s.st ∨ ∃ x, i = .ldStVx x
  stack : t.stack = s.stack ∨ ∃ nnn, i = .call nnn
  sp : t.sp = s.sp ∨ i = .ret ∨ ∃ nnn, i = .call nnn
  mem : t.mem = s.mem ∨
    (∃ x, i = .ldBVx x ∧ 0x50 ≤ s.i.toNat ∧ s.i.toNat + 3 ≤ 0x1000 ∧
      t = s.putBytes s.i.toNat (bcdDigits (s.getV x))) ∨
    ∃ x, i = .ldMemVx x ∧ 0x50 ≤ s.i.toNat ∧ s.i.toNat + x.toNat + 1 ≤ 0x1000 ∧
      t = (s.putBytes s.i.toNat (s.regsUpTo x)).setI (s.indexAfter x)

/-- What an instruction leaves alone. -/
theorem exec_frame {i : Instr} {s t : State} (h : exec i s = .next t) : ExecFrame i s t := by
  cases i with
  | ret =>
    simp only [exec, execRet] at h
    split at h
    · have h := next_inj h; subst h; constructor <;> simp
    · rename_i hp; have := State.pop_eq_some hp; have h := next_inj h; subst h
      rw [this.2.2]; constructor <;> simp
  | call n =>
    simp only [exec, execCall] at h
    split at h
    · have h := next_inj h; subst h; constructor <;> simp
    · rename_i hp; obtain ⟨_, _, _, h3⟩ := State.push_eq_some hp; have h := next_inj h; subst h
      rw [h3]; constructor <;> simp
  | drw x y n =>
    simp only [exec, execDrw] at h
    split at h
    · have h := next_inj h; subst h; constructor <;> simp
    · have h := next_inj h; subst h; constructor <;> simp [State.drawAt]
  | ldVxMem x =>
    simp only [exec, execLdVxMem] at h
    split at h
    · have h := next_inj h; subst h; constructor <;> simp
    · have h := next_inj h; subst h; rw [State.loadRegs_frame]; constructor <;> simp
  | ldBVx x =>
    simp only [exec, execLdBVx] at h
    split at h
    · have h := next_inj h; subst h; constructor <;> simp
    · rename_i hf; have h := next_inj h; subst h
      have := (lowestFault_write_none.1 hf).resolve_left (by decide)
      refine ⟨?_, ?_, ?_, ?_, ?_, ?_, ?_, ?_, ?_, ?_, ?_,
        Or.inr (.inl ⟨x, rfl, this.1, this.2, rfl⟩)⟩ <;> rw [State.putBytes_frame] <;> simp
  | ldMemVx x =>
    simp only [exec, execLdMemVx] at h
    split at h
    · have h := next_inj h; subst h; constructor <;> simp
    · rename_i hf; have h := next_inj h; subst h
      have := (lowestFault_write_none.1 hf).resolve_left (by simp [blockSize])
      refine ⟨?_, ?_, ?_, ?_, ?_, ?_, ?_, ?_, ?_, ?_, ?_,
        Or.inr (.inr ⟨x, rfl, this.1, this.2, rfl⟩)⟩ <;> rw [State.putBytes_frame] <;> simp
  | skp x =>
    simp only [exec, execSkp] at h
    split at h
    · have h := next_inj h; subst h; constructor <;> simp
    · have h := next_inj h; subst h; rw [State.skipIf_eq]; constructor <;> simp
  | sknp x =>
    simp only [exec, execSknp] at h
    split at h
    · have h := next_inj h; subst h; constructor <;> simp
    · have h := next_inj h; subst h; rw [State.skipIf_eq]; constructor <;> simp
  | ldFVx x =>
    simp only [exec, execLdFVx] at h
    split at h
    · have h := next_inj h; subst h; constructor <;> simp
    · have h := next_inj h; subst h; constructor <;> simp
  | ldVxK x => have h := next_inj h; subst h; constructor <;> simp
  | _ =>
    have h := next_inj h; subst h; try rw [State.skipIf_eq]
    constructor <;> simp

/-- All the ways a step goes (spec/30_encoding.md R91): halted, waiting, a fetch fault, an invalid word, or an instruction. -/
theorem step_cases {s t : State} (h : step s = .next t) :
    (∃ f, s.mode = .halted f ∧ t = s) ∨ (∃ x, s.mode = .waitingForKey x ∧ t = s.waitStep x) ∨
    (s.mode = .running ∧
      ((∃ a, lowestFault readFaults s.pc.toNat 2 = some a ∧ t = s.raiseFetch a) ∨
       (s.pc.toNat ≤ 0xFFE ∧ decodeWord s.fetchWord = none ∧ t = (s.setPc (s.pc + 2)).invalidWord s.fetchWord) ∨
       ∃ i, s.pc.toNat ≤ 0xFFE ∧ decodeWord s.fetchWord = some i ∧ exec i (s.setPc (s.pc + 2)) = .next t)) := by
  unfold step State.startStep at h
  cases hm : s.mode with
  | halted f => simp only [hm] at h; exact .inl ⟨f, rfl, (next_inj h).symm⟩
  | waitingForKey x => simp only [hm] at h; exact .inr (.inl ⟨x, rfl, (next_inj h).symm⟩)
  | running =>
    simp only [hm] at h
    refine .inr (.inr ⟨rfl, ?_⟩)
    rcases s.fetchDecode_cases with ⟨a, h1, h2⟩ | ⟨h1, h2, h3⟩ | ⟨i, h1, h2, h3⟩
    · rw [h2] at h; exact .inl ⟨a, h1, (next_inj h).symm⟩
    · rw [h3] at h; have := (lowestFault_read_none.1 h1).resolve_left (by decide)
      exact .inr (.inl ⟨by omega, h2, (next_inj h).symm⟩)
    · rw [h3] at h; have := (lowestFault_read_none.1 h1).resolve_left (by decide)
      exact .inr (.inr ⟨i, by omega, h2, h⟩)

end Sys2Proof.Machine
end

