-- ==== Sys2Proof/Tests/Slice0.lean ====
section
/-!
SUPPORT. Tests on fixed values, each expected result taken from the spec (the vector's name stands in the test's comment,
spec/95_test_vectors.md), and a witness for the hypotheses of every statement that has some.
-/

namespace Sys2Proof.Machine

/-! ## Helpers -/

/-- The check holds of the next state. -/
def nextHas (o : Host.Outcome State Fault Refusal) (p : State → Bool) : Bool :=
  match o with
  | .next t => p t
  | _ => false

/-- The state after an outcome that is a next state. -/
def nextOf (o : Host.Outcome State Fault Refusal) : State :=
  match o with
  | .next t => t
  | _ => State.reset

/-- One step that runs the word `w`. -/
def run1 (s : State) (w : Nat) : Host.Outcome State Fault Refusal := step (s.withFetchWord 16 w)

/-- Registers set. -/
def withRegs (s : State) (l : List (Nibble × Byte)) : State := l.foldl (fun t p => t.setV p.1 p.2) s

/-- The reset state with registers set. -/
def regs (l : List (Nibble × Byte)) : State := withRegs State.reset l

/-- The reset state with I set. -/
def atI (a : Word) : State := State.reset.setI a

/-- The reset state with pc set. -/
def atPc (a : Word) : State := State.reset.setPc a

/-- The reset state waiting for a key. -/
def waiting (x : Nibble) (l : Option Nibble) : State := (State.reset.setMode (.waitingForKey x)).setLatch l

/-- A record of the taxonomy, and the reset state halted with it. -/
def aRecord : FaultRecord := ⟨.invalidOpcode, 0x200, some 0x0000, .none⟩

/-- The reset state halted. -/
def halted : State := State.reset.setMode (.halted aRecord)

/-- The reset state with SP set. -/
def atSp (n : Fin 17) : State := { State.reset with sp := n }

/-- The reset state with a parameter set. -/
def quirk (f : Config → Config) : State := { State.reset with config := f Config.default }

/-- VY shifts. -/
def vyShifts : State := quirk fun c => { c with shiftSource := .vy }

/-- The mode is Halted with this record. -/
def haltedWith (t : State) (f : FaultRecord) : Bool := t.mode == .halted f

/-! ## Well-formedness: an ill-formed term for each check -/

theorem test_wordWellFormed_refuses : wordWellFormed 0x0000 = false ∧ wordWellFormed 0x5121 = false ∧
    wordWellFormed 0x8008 = false ∧ wordWellFormed 0x00E0 = true := by decide

theorem test_programWellFormed_refuses : programWellFormed (List.replicate 3585 0) = false := by
  rw [programWellFormed, List.length_replicate]; decide

theorem test_configWellFormed_refuses :
    ({ Config.default with cpuHz := 0 } : Config).wellFormed = false := by decide

theorem test_memoryWf_refuses : Memory.wf Config.default [(0x300, 1), (0x300, 2)] = false ∧
    Memory.wf Config.default [(0x300, 0)] = false ∧ Memory.wf Config.default [(0x1000, 1)] = false ∧
    Memory.wf Config.default [(0x000, 0xF0)] = false := by decide

/-! ## Decoding: each constructor from a word written out from its pattern (R84, R89) -/

theorem test_decode_cls : decodeTableWord 16 0x00E0 = some (.cls) ∧ encode (.cls) = 0x00E0 := by decide

theorem test_decode_ret : decodeTableWord 16 0x00EE = some (.ret) ∧ encode (.ret) = 0x00EE := by decide

theorem test_decode_jp :
    decodeTableWord 16 0x1234 = some (.jp 0x234) ∧ encode (.jp 0x234) = 0x1234 := by decide

theorem test_decode_call :
    decodeTableWord 16 0x2210 = some (.call 0x210) ∧ encode (.call 0x210) = 0x2210 := by decide

theorem test_decode_seImm :
    decodeTableWord 16 0x3100 = some (.seImm 1 0x00) ∧ encode (.seImm 1 0x00) = 0x3100 := by decide

theorem test_decode_sneImm :
    decodeTableWord 16 0x4207 = some (.sneImm 2 0x07) ∧ encode (.sneImm 2 0x07) = 0x4207 := by decide

theorem test_decode_seReg :
    decodeTableWord 16 0x5340 = some (.seReg 3 4) ∧ encode (.seReg 3 4) = 0x5340 := by decide

theorem test_decode_ldImm :
    decodeTableWord 16 0x6A9C = some (.ldImm 0xA 0x9C) ∧ encode (.ldImm 0xA 0x9C) = 0x6A9C := by decide

theorem test_decode_addImm :
    decodeTableWord 16 0x7302 = some (.addImm 3 0x02) ∧ encode (.addImm 3 0x02) = 0x7302 := by decide

theorem test_decode_ldReg :
    decodeTableWord 16 0x8120 = some (.ldReg 1 2) ∧ encode (.ldReg 1 2) = 0x8120 := by decide

theorem test_decode_or : decodeTableWord 16 0x8121 = some (.or 1 2) ∧ encode (.or 1 2) = 0x8121 := by decide

theorem test_decode_and :
    decodeTableWord 16 0x8122 = some (.and 1 2) ∧ encode (.and 1 2) = 0x8122 := by decide

theorem test_decode_xor :
    decodeTableWord 16 0x8123 = some (.xor 1 2) ∧ encode (.xor 1 2) = 0x8123 := by decide

theorem test_decode_addReg :
    decodeTableWord 16 0x8124 = some (.addReg 1 2) ∧ encode (.addReg 1 2) = 0x8124 := by decide

theorem test_decode_sub :
    decodeTableWord 16 0x8125 = some (.sub 1 2) ∧ encode (.sub 1 2) = 0x8125 := by decide

theorem test_decode_shr :
    decodeTableWord 16 0x8126 = some (.shr 1 2) ∧ encode (.shr 1 2) = 0x8126 := by decide

theorem test_decode_subn :
    decodeTableWord 16 0x8127 = some (.subn 1 2) ∧ encode (.subn 1 2) = 0x8127 := by decide

theorem test_decode_shl :
    decodeTableWord 16 0x812E = some (.shl 1 2) ∧ encode (.shl 1 2) = 0x812E := by decide

theorem test_decode_sneReg :
    decodeTableWord 16 0x9340 = some (.sneReg 3 4) ∧ encode (.sneReg 3 4) = 0x9340 := by decide

theorem test_decode_ldI :
    decodeTableWord 16 0xA300 = some (.ldI 0x300) ∧ encode (.ldI 0x300) = 0xA300 := by decide

theorem test_decode_jpV0 :
    decodeTableWord 16 0xB300 = some (.jpV0 0x300) ∧ encode (.jpV0 0x300) = 0xB300 := by decide

theorem test_decode_rnd :
    decodeTableWord 16 0xC30F = some (.rnd 3 0x0F) ∧ encode (.rnd 3 0x0F) = 0xC30F := by decide

theorem test_decode_drw :
    decodeTableWord 16 0xD015 = some (.drw 0 1 5) ∧ encode (.drw 0 1 5) = 0xD015 := by decide

theorem test_decode_skp : decodeTableWord 16 0xE59E = some (.skp 5) ∧ encode (.skp 5) = 0xE59E := by decide

theorem test_decode_sknp : decodeTableWord 16 0xE0A1 = some (.sknp 0) ∧ encode (.sknp 0) = 0xE0A1 := by decide

theorem test_decode_ldVxDt :
    decodeTableWord 16 0xF407 = some (.ldVxDt 4) ∧ encode (.ldVxDt 4) = 0xF407 := by decide

theorem test_decode_ldVxK :
    decodeTableWord 16 0xF50A = some (.ldVxK 5) ∧ encode (.ldVxK 5) = 0xF50A := by decide

theorem test_decode_ldDtVx :
    decodeTableWord 16 0xF315 = some (.ldDtVx 3) ∧ encode (.ldDtVx 3) = 0xF315 := by decide

theorem test_decode_ldStVx :
    decodeTableWord 16 0xF018 = some (.ldStVx 0) ∧ encode (.ldStVx 0) = 0xF018 := by decide

theorem test_decode_addIVx :
    decodeTableWord 16 0xF11E = some (.addIVx 1) ∧ encode (.addIVx 1) = 0xF11E := by decide

theorem test_decode_ldFVx :
    decodeTableWord 16 0xF229 = some (.ldFVx 2) ∧ encode (.ldFVx 2) = 0xF229 := by decide

theorem test_decode_ldBVx :
    decodeTableWord 16 0xFA33 = some (.ldBVx 0xA) ∧ encode (.ldBVx 0xA) = 0xFA33 := by decide

theorem test_decode_ldMemVx :
    decodeTableWord 16 0xF155 = some (.ldMemVx 1) ∧ encode (.ldMemVx 1) = 0xF155 := by decide

theorem test_decode_ldVxMem :
    decodeTableWord 16 0xF265 = some (.ldVxMem 2) ∧ encode (.ldVxMem 2) = 0xF265 := by decide

/-- dec-1: the byte at the lower address is the more significant; the rest of the bytes is handed back. -/
theorem test_decodeBytes_big_endian :
    decodeBytes [0x61, 0x2A, 0x77] = .ok (.ldImm 1 0x2A, [0x77]) := by decide

theorem test_decodeBytes_rejects : decodeBytes [0x00, 0x00] = .error (.invalidOpcode 0x0000) ∧
    decodeBytes [0x12] = .error .truncated ∧ decodeBytes [] = .error .truncated := by decide

/-- dec-3: the invalid words of the vector. -/
theorem test_decode_invalid : decodeWord 0x0123 = none ∧ decodeWord 0x5121 = none ∧ decodeWord 0x8008 = none ∧
    decodeWord 0x800F = none ∧ decodeWord 0x9001 = none ∧ decodeWord 0xE000 = none ∧
      decodeWord 0xF000 = none ∧
    decodeWord 0xF0FF = none := by decide

/-! ## One step, the values of spec/95_test_vectors.md -/

/-- dec-1 -/
theorem test_step_big_endian :
    nextHas (run1 State.reset 0x612A) fun t => t.getV 1 == 0x2A && t.pc == 0x202 := by decide

/-- dec-2, dec-8 -/
theorem test_step_invalid : nextHas (step State.reset) fun t =>
    haltedWith t ⟨.invalidOpcode, 0x200, some 0x0000, .none⟩ && t.pc == 0x202 := by decide

/-- dec-4 -/
theorem test_step_skip_policy :
    nextHas (run1 (quirk fun c => { c with invalidOpcodePolicy := .skip }) 0x5121) fun t =>
    t.mode == .running && t.pc == 0x202 := by decide

/-- dec-6 -/
theorem test_step_fetch_fault : nextHas (step (atPc 0xFFF)) fun t =>
    haltedWith t ⟨.addressFault, 0xFFF, none, .access 0x1000 .fetch⟩ && t.pc == 0xFFF := by decide

/-- dec-7 -/
theorem test_step_fetch_last : nextHas (step (atPc 0xFFE)) fun t =>
    haltedWith t ⟨.invalidOpcode, 0xFFE, some 0x0000, .none⟩ && t.pc == 0x1000 := by decide

/-- dec-5, second step -/
theorem test_step_fetch_odd :
    nextHas (run1 (atPc 0x203) 0x612A) fun t => t.getV 1 == 0x2A && t.pc == 0x205 := by decide

/-- flow-1 -/
theorem test_jp : nextHas (run1 State.reset 0x1234) fun t => t.pc == 0x234 := by decide

/-- flow-3 -/
theorem test_call : nextHas (run1 (atPc 0x204) 0x2210) fun t =>
    t.stack[0] == 0x206 && t.sp.val == 1 && t.pc == 0x210 := by decide

/-- flow-6 -/
theorem test_call_overflow : nextHas (run1 ((atSp 16).setPc 0x300) 0x2400) fun t =>
    haltedWith t ⟨.stackOverflow, 0x300, some 0x2400, .none⟩ && t.sp.val == 16 && t.pc == 0x302 := by decide

/-- flow-4 -/
theorem test_ret : nextHas (run1 { atSp 1 with stack := State.reset.stack.set 0 0x206 } 0x00EE) fun t =>
    t.sp.val == 0 && t.pc == 0x206 && t.stack[0] == 0x206 := by decide

/-- flow-5 -/
theorem test_ret_underflow : nextHas (run1 State.reset 0x00EE) fun t =>
    haltedWith t ⟨.stackUnderflow, 0x200, some 0x00EE, .none⟩ && t.pc == 0x202 := by decide

/-- flow-7, flow-8 -/
theorem test_seImm : (nextHas (run1 (atPc 0x206) 0x3100) fun t => t.pc == 0x20A) &&
    (nextHas (run1 (withRegs (atPc 0x206) [(1, 0x04)]) 0x3100) fun t => t.pc == 0x208) := by decide

/-- flow-9 -/
theorem test_sneImm : (nextHas (run1 (regs [(2, 7)]) 0x4207) fun t => t.pc == 0x202) &&
    (nextHas (run1 (regs [(2, 7)]) 0x4208) fun t => t.pc == 0x204) := by decide

/-- flow-10, flow-11 -/
theorem test_seReg : (nextHas (run1 (regs [(3, 0x10), (4, 0x10)]) 0x5340) fun t => t.pc == 0x204) &&
    (nextHas (run1 (regs [(3, 0x77)]) 0x5330) fun t => t.pc == 0x204) := by decide

/-- flow-12, flow-13 -/
theorem test_sneReg : (nextHas (run1 (regs [(3, 0x10), (4, 0x11)]) 0x9340) fun t => t.pc == 0x204) &&
    (nextHas (run1 (regs [(3, 0x10)]) 0x9330) fun t => t.pc == 0x202) := by decide

/-- flow-15: the sum is not reduced -/
theorem test_jpV0 :
    nextHas (run1 (regs [(0, 0xFF)]) 0xBFFF) fun t => t.pc == 0x10FE && t.mode == .running := by decide

/-- flow-14; the offset is V0 whatever nnn is -/
theorem test_jpV0_register :
    nextHas (run1 (regs [(0, 0x04), (3, 0x50)]) 0xB300) fun t => t.pc == 0x304 := by decide

/-- flow-17 -/
theorem test_skip_at_top :
    nextHas (run1 (atPc 0xFFE) 0x3000) fun t => t.pc == 0x1002 && t.mode == .running := by decide

/-- alu-1 -/
theorem test_ldImm : nextHas (run1 State.reset 0x6A9C) fun t => t.getV 0xA == 0x9C := by decide

/-- alu-2 -/
theorem test_addImm :
    nextHas (run1 (regs [(3, 0xFF), (0xF, 0x5A)]) 0x7302) fun t => t.getV 3 == 0x01 && t.getV 0xF == 0x5A :=
  by decide

/-- alu-3 -/
theorem test_addImm_vf : nextHas (run1 (regs [(0xF, 0xFF)]) 0x7F01) fun t => t.getV 0xF == 0x00 := by decide

/-- alu-4 -/
theorem test_ldReg :
    nextHas (run1 (regs [(1, 0x42), (0xF, 7)]) 0x8010) fun t => t.getV 0 == 0x42 && t.getV 0xF == 7 :=
  by decide

/-- alu-5 -/
theorem test_or : nextHas (run1 (regs [(1, 0xF0), (2, 0x0F), (0xF, 7)]) 0x8121) fun t =>
    t.getV 1 == 0xFF && t.getV 0xF == 7 := by decide

/-- alu-6 -/
theorem test_and : nextHas (run1 (regs [(1, 0xF0), (2, 0x3C), (0xF, 7)]) 0x8122) fun t =>
    t.getV 1 == 0x30 && t.getV 0xF == 7 := by decide

/-- alu-7 -/
theorem test_xor : nextHas (run1 (regs [(1, 0xF0), (2, 0x3C), (0xF, 7)]) 0x8123) fun t =>
    t.getV 1 == 0xCC && t.getV 0xF == 7 := by decide

/-- alu-9 -/
theorem test_addReg :
    nextHas (run1 (regs [(1, 0xFF), (2, 0x01)]) 0x8124) fun t => t.getV 1 == 0x00 && t.getV 0xF == 1 :=
  by decide

/-- alu-11: the flag is written after the result -/
theorem test_addReg_vf :
    nextHas (run1 (regs [(0xF, 0xFF), (2, 0x01)]) 0x8F24) fun t => t.getV 0xF == 1 := by decide

/-- alu-13 -/
theorem test_sub_borrow : nextHas (run1 (regs [(1, 0x03), (2, 0x05), (0xF, 9)]) 0x8125) fun t =>
    t.getV 1 == 0xFE && t.getV 0xF == 0 := by decide

/-- alu-14 -/
theorem test_sub_equal :
    nextHas (run1 (regs [(1, 0x40), (2, 0x40)]) 0x8125) fun t => t.getV 1 == 0x00 && t.getV 0xF == 1 :=
  by decide

/-- alu-16 -/
theorem test_subn :
    nextHas (run1 (regs [(1, 0x03), (2, 0x05)]) 0x8127) fun t => t.getV 1 == 0x02 && t.getV 0xF == 1 :=
  by decide

/-- alu-17 -/
theorem test_subn_borrow : nextHas (run1 (regs [(1, 0x05), (2, 0x03), (0xF, 9)]) 0x8127) fun t =>
    t.getV 1 == 0xFE && t.getV 0xF == 0 := by decide

/-- alu-18 -/
theorem test_shr_vx :
    nextHas (run1 (regs [(1, 0x05)]) 0x8106) fun t => t.getV 1 == 0x02 && t.getV 0xF == 1 := by decide

/-- alu-20 -/
theorem test_shr_vy : nextHas (run1 (withRegs vyShifts [(2, 0x05)]) 0x8126) fun t =>
    t.getV 1 == 0x02 && t.getV 0xF == 1 && t.getV 2 == 0x05 := by decide

/-- alu-22 -/
theorem test_shl_vx :
    nextHas (run1 (regs [(1, 0x81)]) 0x810E) fun t => t.getV 1 == 0x02 && t.getV 0xF == 1 := by decide

/-- alu-25 -/
theorem test_shl_vy : nextHas (run1 (withRegs vyShifts [(2, 0x81)]) 0x812E) fun t =>
    t.getV 1 == 0x02 && t.getV 0xF == 1 && t.getV 2 == 0x81 := by decide

/-- alu-27: a mask of 0 gives 0 and still takes one draw. -/
theorem test_rnd_zero_mask : nextHas (run1 State.reset 0xC000) fun t => t.getV 0 == 0 && t.rngDraws == 1 := by
  have h : run1 State.reset 0xC000 = exec (.rnd 0 0) ((State.reset.withFetchWord 16 0xC000).setPc 0x202) :=
  rfl
  rw [h]; simp [exec, execRnd, nextHas, State.getV, State.setV, State.rngAdvance, State.setPc]; rfl

/-- drw-1 -/
theorem test_cls :
    nextHas (run1 ((regs [(0xF, 7)]).setFb (State.reset.fb.set 3 (Vector.replicate 64 true))) 0x00E0) fun t =>
    t.fb == Framebuffer.clear && t.getV 0xF == 7 := by decide

/-- drw-8, P5 -/
theorem test_drw_wraps : nextHas (run1 (withRegs (atI 0x019) [(0, 0x3E), (1, 0x1E)]) 0xD015) fun t =>
    Framebuffer.pixel t.fb 62 30 && Framebuffer.pixel t.fb 1 30 && Framebuffer.pixel t.fb 62 31 &&
    Framebuffer.pixel t.fb 1 1 && !Framebuffer.pixel t.fb 62 1 && Framebuffer.pixel t.fb 1 2 && t.getV 0xF == 0 :=
  by decide

/-- drw-7 -/
theorem test_drw_fault : nextHas (run1 (withRegs (atI 0xFFE) [(0xF, 7)]) 0xD003) fun t =>
    haltedWith t ⟨.addressFault, 0x200, some 0xD003, .access 0x1000 .read⟩ && t.getV 0xF == 7 := by decide

/-- drw-9 -/
theorem test_ldFVx : nextHas (run1 (regs [(2, 0x0A)]) 0xF229) fun t => t.i == 0x032 := by decide

/-- drw-11 -/
theorem test_ldFVx_fault : nextHas (run1 (withRegs (atI 0x123) [(2, 0x10)]) 0xF229) fun t =>
    haltedWith t ⟨.operandFault, 0x200, some 0xF229, .operand 0x10⟩ && t.i == 0x123 := by decide

/-- key-1 -/
theorem test_skp :
    nextHas (run1 ((withRegs (atPc 0x202) [(5, 7)]).setPressed 7 true) 0xE59E) fun t => t.pc == 0x206 :=
  by decide

/-- key-5 -/
theorem test_skp_fault : nextHas (run1 (regs [(5, 0x10)]) 0xE59E) fun t =>
    haltedWith t ⟨.operandFault, 0x200, some 0xE59E, .operand 0x10⟩ := by decide

/-- key-3 -/
theorem test_sknp :
    nextHas (run1 (withRegs (atPc 0x300) [(0, 0xF)]) 0xE0A1) fun t => t.pc == 0x304 := by decide

/-- key-4 -/
theorem test_sknp_held :
    nextHas (run1 ((withRegs (atPc 0x300) [(0, 0xF)]).setPressed 0xF true) 0xE0A1) fun t => t.pc == 0x302 :=
  by decide

/-- key-6, first step: a held key does not end the wait -/
theorem test_ldVxK : nextHas (run1 (State.reset.setPressed 3 true) 0xF30A) fun t =>
    t.mode == .waitingForKey 3 && t.pc == 0x202 && t.latch == none := by decide

/-- key-9 -/
theorem test_wait_first_press :
    nextHas (step (((waiting 3 none).setPressed 4 true).setPressed 9 true)) fun t =>
    t.getV 3 == 4 && t.latch == none && t.mode == .running := by decide

/-- key-12 -/
theorem test_wait_vf :
    nextHas (step (waiting 0xF (some 0xA))) fun t => t.getV 0xF == 0x0A && t.pc == 0x200 := by decide

/-- key-10 -/
theorem test_press_while_running :
    (State.reset.setPressed 5 true).isPressed 5 && (State.reset.setPressed 5 true).latch == none := by decide

/-- tmr-1 -/
theorem test_ldVxDt :
    nextHas (run1 (State.reset.setDt 0x0A) 0xF407) fun t => t.getV 4 == 0x0A && t.dt == 0x0A := by decide

/-- tmr-2 -/
theorem test_ldDtVx :
    nextHas (run1 (regs [(3, 5)]) 0xF315) fun t => t.dt == 5 && t.tickTimers.dt == 4 := by decide

/-- tmr-3 -/
theorem test_ldStVx : nextHas (run1 (regs [(0, 2)]) 0xF018) fun t =>
    t.st == 2 && t.soundOn && !t.tickTimers.tickTimers.soundOn := by decide

/-- tmr-5, tmr-7 -/
theorem test_tick :
    ((State.reset.setSt 1).tickTimers.st == 0) && ((State.reset.setSt 1).tickTimers.dt == 0) &&
    ((halted.setDt 5).tickTimers.dt == 5) := by decide

/-- mem-1 -/
theorem test_ldI : nextHas (run1 State.reset 0xAFFF) fun t => t.i == 0x0FFF := by decide

/-- mem-3 -/
theorem test_addIVx :
    nextHas (run1 (withRegs (atI 0xFFFF) [(1, 1), (0xF, 7)]) 0xF11E) fun t => t.i == 0x0000 && t.getV 0xF == 7 :=
  by decide

/-- mem-4 -/
theorem test_addIVx_above :
    nextHas (run1 (withRegs (atI 0x0FFF) [(1, 1)]) 0xF11E) fun t => t.i == 0x1000 && t.mode == .running :=
  by decide

/-- mem-5 -/
theorem test_ldBVx : nextHas (run1 (withRegs (atI 0x300) [(0xA, 0x9C)]) 0xFA33) fun t =>
    t.byteAt 0x300 == 1 && t.byteAt 0x301 == 5 && t.byteAt 0x302 == 6 && t.i == 0x300 := by decide

/-- mem-7 -/
theorem test_ldBVx_font : nextHas (run1 (atI 0x04D) 0xF033) fun t =>
    haltedWith t ⟨.addressFault, 0x200, some 0xF033, .access 0x04D .write⟩ && t.byteAt 0x04D == 0xF0 :=
  by decide

/-- mem-9 under PLUS_X_PLUS_1 -/
theorem test_ldMemVx :
    nextHas (run1 (withRegs ((quirk fun c => { c with loadStoreI :=
  .plusXPlus1 }).setI 0x310) [(1, 5)]) 0xF155)
    fun t => t.byteAt 0x310 == 0 && t.byteAt 0x311 == 5 && t.i == 0x312 := by decide

/-- mem-13 -/
theorem test_ldMemVx_top : nextHas (run1 (withRegs (atI 0xFFF) [(0, 3), (1, 7)]) 0xF155) fun t =>
    haltedWith t ⟨.addressFault, 0x200, some 0xF155, .access 0x1000 .write⟩ && t.byteAt 0xFFF == 0 && t.i == 0xFFF :=
  by decide

/-- mem-14: the font may be read -/
theorem test_ldVxMem : nextHas (run1 State.reset 0xF465) fun t =>
    t.getV 0 == 0xF0 && t.getV 1 == 0x90 && t.getV 4 == 0xF0 && t.getV 5 == 0 && t.i == 0 := by decide

/-- mem-17 -/
theorem test_ldVxMem_top : nextHas (run1 (withRegs (atI 0xFFF) [(0, 3)]) 0xF165) fun t =>
    haltedWith t ⟨.addressFault, 0x200, some 0xF165, .access 0x1000 .read⟩ && t.getV 0 == 3 := by decide

/-- dec-9 -/
theorem test_load_error : initialised Config.default (List.replicate 3585 0) = .error ⟨3585⟩ := by
  rw [initialised, programWellFormed, List.length_replicate]; rfl

/-- sch-1 -/
theorem test_advance_zero : nextHas (advance 0 State.reset) fun t => t == State.reset := by decide

/-- sch-5: tick 3 and step 35 are due at 50 ms, and the tick goes first -/
theorem test_advance_tie : nextHas (advance 1 { (State.reset.withFetchWord 16 0xF407).setDt 3 with
      tNs := 49999999, cpuDone := 34, tmrDone := 2 }) fun t =>
    t.cpuDone == 35 && t.tmrDone == 3 && t.dt == 2 && t.getV 4 == 2 := by decide

/-- err-4 -/
theorem test_advance_halted : nextHas (advance 1000000000 halted) fun t => t == halted := by decide

/-! ## Witnesses: the hypotheses of each statement are met, clause by clause -/

/-- A state that is not halted is live. -/
theorem live_of {s : State} (h : s.isHalted = false) : s.live := fun f hf => by
  rw [State.isHalted, hf] at h; cases h

theorem live_reset : State.reset.live := live_of rfl

theorem live_waiting : (waiting 3 none).live := live_of rfl

/-- A state that meets the whole invariant: a byte stored, a return address on the stack, time elapsed, a key awaited. -/
def busy : State :=
  { waiting 5 (some 7) with
    mem := [(0x300, 0x12)], sp := 1, stack := State.reset.stack.set 0 0x206, pc := 0x10FE, tNs := 20000000,
    cpuDone := 14, tmrDone := 1 }

theorem memoryInv_busy : busy.memoryInv := ⟨by decide, by decide⟩

theorem pcInv_busy : busy.pcInv := ⟨by decide, by decide⟩

theorem witness_invariant : busy.Inv :=
  ⟨by decide, memoryInv_busy, pcInv_busy, trivial, ⟨by decide, by decide⟩⟩

theorem witness_StepRunsTheDecodedInstruction : (State.reset.placeWord 0x6105).mode = .running ∧
    (State.reset.placeWord 0x6105).pc.toNat ≤ 0xFFE ∧ decodeWord (BitVec.ofNat 16
      (0x100 * ((State.reset.placeWord 0x6105).byteAt (State.reset.placeWord 0x6105).pc.toNat).toNat +
        ((State.reset.placeWord 0x6105).byteAt ((State.reset.placeWord 0x6105).pc.toNat + 1)).toNat)) =
      some (.ldImm 1 5) := by decide

theorem witness_StepFollowsTheCycle_halted : halted.mode = .halted aRecord := rfl

theorem witness_StepFollowsTheCycle_waiting : (waiting 3 none).mode = .waitingForKey 3 := rfl

theorem witness_StepFollowsTheCycle_fetchFault :
    ((atPc 0xFFF).mode = .running ∧ 0xFFE < (atPc 0xFFF).pc.toNat) ∧
    (atPc 0x10FE).mode = .running ∧ 0xFFE < (atPc 0x10FE).pc.toNat := by decide

theorem witness_StepFollowsTheCycle_invalid : (atPc 0xFFE).mode = .running ∧ (atPc 0xFFE).pc.toNat ≤ 0xFFE ∧
    decodeWord (BitVec.ofNat 16 (0x100 * ((atPc 0xFFE).byteAt (atPc 0xFFE).pc.toNat).toNat +
      ((atPc 0xFFE).byteAt ((atPc 0xFFE).pc.toNat + 1)).toNat)) = none := by decide

theorem witness_WaitingStepConsumesTheLatch :
    ((waiting 3 none).mode = .waitingForKey 3 ∧ (waiting 3 none).latch = none) ∧
    (waiting 0xF (some 0xA)).mode = .waitingForKey 0xF ∧ (waiting 0xF (some 0xA)).latch = some 0xA :=
  by decide

theorem witness_HaltedIsTerminal : halted.mode = .halted aRecord := rfl

theorem witness_ErrorsArePrecise_fetch :
    (atPc 0xFFF).mode = .running ∧ ∃ t f, step (atPc 0xFFF) = .next t ∧ t.mode = .halted f :=
  ⟨rfl, _, _, rfl, rfl⟩

theorem witness_ErrorsArePrecise_invalid :
    State.reset.mode = .running ∧ ∃ t f, step State.reset = .next t ∧ t.mode = .halted f :=
  ⟨rfl, _, _, rfl, rfl⟩

theorem witness_ErrorsArePrecise_instruction : (State.reset.placeWord 0x00EE).mode = .running ∧
    ∃ t f, step (State.reset.placeWord 0x00EE) = .next t ∧ t.mode = .halted f := ⟨rfl, _, _, rfl, rfl⟩

theorem witness_EncodeOfDecodeIsTheWord : decodeWord 0xDF1F = some (.drw 0xF 1 0xF) := by decide

theorem witness_DecodeAgreesWithTheOpcodeTable :
    decodeWord 0xF165 = some (.ldVxMem 1) ∧ OpcodeRow.mk 0xF0FF 0xF065 ∈ opcodeRows ∧
    (0xF165 : Word) &&& (OpcodeRow.mk 0xF0FF 0xF065).mask = (OpcodeRow.mk 0xF0FF 0xF065).pattern := by decide

theorem witness_RetPopsThePc : 0 < (atSp 1).sp.val ∧ 0 < (atSp 16).sp.val ∧ (atSp 0).sp.val = 0 := by decide

theorem witness_CallPushesThePc :
    (atSp 0).sp.val < 16 ∧ (atSp 15).sp.val < 16 ∧ (atSp 16).sp.val = 16 := by decide

theorem witness_SkipsOnARegisterCompare : (1 : Nibble) ≠ 0 ∧ (0xF : Nibble) ≠ 0 := by decide

/-- The hypothesis on x of AddWritesSumThenCarry, the two subtractions and the two shifts. -/
theorem witness_destination_is_not_the_flag : (0 : Nibble) ≠ 0xF ∧ (0xE : Nibble) ≠ 0xF := by decide

/-- ShrHalvesTheShiftSource and ShlDoublesTheShiftSource, under VX and under VY. -/
theorem witness_ShiftSource :
    (0 : Byte) = (if State.reset.config.shiftSource = .vy then State.reset.getV 2 else State.reset.getV 1) ∧
    (5 : Byte) = (if (withRegs vyShifts [(2, 5)]).config.shiftSource = .vy then (withRegs vyShifts [(2, 5)]).getV 2
      else (withRegs vyShifts [(2, 5)]).getV 1) := by decide

/-- The last sprite that fits, and the first that does not. -/
theorem witness_DrwFlipsTheCoveredPixels :
    (∀ r : Nat, r < (2 : Nibble).toNat → (atI 0xFFE).i.toNat + r ≤ 0xFFF) ∧
    2 < (3 : Nibble).toNat ∧ 0xFFF < (atI 0xFFE).i.toNat + 2 := by decide

/-- A covered pixel (the top right corner of glyph 0), and one that was on. -/
theorem witness_DrwFlipsTheCoveredPixels_covered : State.reset.spriteCovers 0 1 5 3 0 ∧
    (State.reset.setFb (State.reset.fb.set 0 (Vector.replicate 64 true))).fb[0][3] = true :=
  ⟨⟨0, 3, by decide⟩, by decide⟩

theorem witness_DrwFlipsTheCoveredPixels_uncovered : ¬ State.reset.spriteCovers 0 1 0 3 0 ∧
    ∀ (r c : Nat) (hr : r < 32) (hc : c < 64), State.reset.spriteCovers 0 1 0 c r → State.reset.fb[r][c] = false :=
  by
  have h : ∀ c r : Nat, ¬ State.reset.spriteCovers 0 1 0 c r := fun _ _ ⟨j, _, hj, _⟩ => Nat.not_lt_zero j hj
  exact ⟨h 3 0, fun r c _ _ hc => absurd hc (h c r)⟩

theorem witness_DrawingTwiceRestoresTheFramebuffer :
    (∀ r : Nat, r < (5 : Nibble).toNat → State.reset.i.toNat + r ≤ 0xFFF) ∧
    ∃ t, exec (.drw 0 1 5) State.reset = .next t ∧ t.i = State.reset.i ∧ t.getV 0 = State.reset.getV 0 ∧
      t.getV 1 = State.reset.getV 1 ∧ State.reset.sameBytes t :=
  ⟨by decide, _, rfl, rfl, by decide, by decide, fun _ => rfl⟩

theorem witness_LdFPointsAtTheGlyph :
    ((regs [(2, 0xF)]).getV 2).toNat ≤ 0xF ∧ 0xF < ((regs [(2, 0x10)]).getV 2).toNat := by decide

theorem witness_KeySkipsTestTheKey :
    (State.reset.setPressed 0xF true).keys[((regs [(0, 0xF)]).getV 0).toNat]? = some true ∧
    State.reset.keys[(State.reset.getV 0).toNat]? = some false ∧ 0xF < ((regs [(0, 0x10)]).getV 0).toNat :=
  by decide

theorem witness_LdBStoresTheDigits :
    (Memory.wf (atI 0x50).config (atI 0x50).mem = true ∧ 0x50 ≤ (atI 0x50).i.toNat ∧
      (atI 0x50).i.toNat + 2 ≤ 0xFFF) ∧
    0x50 ≤ (atI 0xFFD).i.toNat ∧ (atI 0xFFD).i.toNat + 2 ≤ 0xFFF := by decide

/-- The fault clause of LdBStoresTheDigits, LdMemStoresTheRegisters and MultiByteAccessesAreAllOrNothing: the font region. -/
theorem witness_StoreFaults_font :
    (atI 0x4F).i.toNat ≤ 0x4F ∧ 0x4F ≤ (atI 0x4F).i.toNat + 2 ∧ (0xFFF < 0x4F ∨ 0x4F ≤ 0x04F) ∧
    ∀ b : Nat, (atI 0x4F).i.toNat ≤ b → b < 0x4F → ¬ (0xFFF < b ∨ b ≤ 0x04F) :=
  ⟨by decide, by decide, by decide, fun b h1 h2 => by
    have : (atI 0x4F).i.toNat = 0x4F := rfl
    omega⟩

/-- The same clause above the top of memory. -/
theorem witness_StoreFaults_top :
    (atI 0xFFE).i.toNat ≤ 0x1000 ∧ 0x1000 ≤ (atI 0xFFE).i.toNat + (2 : Nibble).toNat ∧
    (0xFFF < 0x1000 ∨ 0x1000 ≤ 0x04F) ∧
    ∀ b : Nat, (atI 0xFFE).i.toNat ≤ b → b < 0x1000 → ¬ (0xFFF < b ∨ b ≤ 0x04F) :=
  ⟨by decide, by decide, by decide, fun b h1 h2 => by
    have : (atI 0xFFE).i.toNat = 0xFFE := rfl
    omega⟩

theorem witness_LdMemStoresTheRegisters :
    Memory.wf (atI 0x50).config (atI 0x50).mem = true ∧ 0x50 ≤ (atI 0x50).i.toNat ∧
    (atI 0x50).i.toNat + (0xF : Nibble).toNat ≤ 0xFFF ∧ (atI 0xFF0).i.toNat + (0xF : Nibble).toNat ≤ 0xFFF ∧
    (0 : Nibble).toNat ≤ (0 : Nibble).toNat := by decide

theorem witness_LdVxMemLoadsTheRegisters :
    (atI 0xFF0).i.toNat + (0xF : Nibble).toNat ≤ 0xFFF ∧ 0xFFF < (atI 0xFF1).i.toNat + (0xF : Nibble).toNat ∧
    (1 : Nibble).toNat < (2 : Nibble).toNat := by decide

/-- The load clause; the store clauses are met as StoreFaults_font and StoreFaults_top say. -/
theorem witness_MultiByteAccessesAreAllOrNothing :
    ∃ (i : Instr) (count : Nat), (i = .ldVxMem 1 ∧ count = (1 : Nibble).toNat + 1) ∧
    (atI 0xFFF).i.toNat ≤ 0x1000 ∧ 0x1000 < (atI 0xFFF).i.toNat + count ∧ 0xFFF < 0x1000 ∧
    ∀ b : Nat, (atI 0xFFF).i.toNat ≤ b → b < 0x1000 → ¬ (0xFFF < b ∨ (Access.read = .write ∧ b ≤ 0x04F)) :=
  ⟨_, _, ⟨rfl, rfl⟩, by decide, by decide, by decide, fun b h1 h2 => by
    have : (atI 0xFFF).i.toNat = 0xFFF := rfl
    rintro (h | ⟨h, _⟩)
    · omega
    · cases h⟩

/-- A state whose V0, V1 hold the word 612A, I and pc at 0x300. -/
def storesCode : State := (withRegs (atI 0x300) [(0, 0x61), (1, 0x2A)]).setPc 0x300

theorem witness_StoredRegistersLoadBack :
    Memory.wf storesCode.config storesCode.mem = true ∧ ∃ t, exec (.ldMemVx 1) storesCode = .next t ∧ t.live ∧
    t.i = storesCode.i ∧ t.sameBytes t := 
  ⟨by decide, nextOf (exec (.ldMemVx 1) storesCode), rfl, live_of (by decide), rfl, fun _ => rfl⟩

theorem witness_StoredWordIsFetchedAtOnce :
    Memory.wf storesCode.config storesCode.mem = true ∧ storesCode.mode = .running ∧
    (∃ t, exec (.ldMemVx 1) storesCode = .next t ∧ t.live) ∧ 1 ≤ (1 : Nibble).toNat ∧
      storesCode.pc = storesCode.i ∧
    decodeWord (BitVec.ofNat 16 (0x100 * (storesCode.getV 0x0).toNat + (storesCode.getV 0x1).toNat)) =
      some (.ldImm 1 0x2A) := 
  ⟨by decide, rfl, ⟨nextOf (exec (.ldMemVx 1) storesCode), rfl, live_of (by decide)⟩, by decide, by decide, by decide⟩

theorem witness_OnlyClsAndDrwChangeTheFramebuffer :
    ∃ t, step (State.reset.placeWord 0xD015) = .next t ∧ t.fb ≠ (State.reset.placeWord 0xD015).fb :=
  ⟨_, rfl, by decide⟩

theorem witness_OnlyFx15AndFx18SetTheTimers :
    (∃ t, step ((regs [(3, 5)]).placeWord 0xF315) = .next t ∧ t.dt ≠ ((regs [(3, 5)]).placeWord 0xF315).dt) ∧
    ∃ t, step ((regs [(3, 5)]).placeWord 0xF318) = .next t ∧ t.st ≠ ((regs [(3, 5)]).placeWord 0xF318).st :=
  ⟨⟨_, rfl, by decide⟩, _, rfl, by decide⟩

theorem witness_OnlyStoresChangeMemory :
    Memory.wf (storesCode.placeWord 0xF155).config (storesCode.placeWord 0xF155).mem = true ∧
    ∃ t, step (storesCode.placeWord 0xF155) = .next t ∧ t.byteAt 0x300 ≠ (storesCode.placeWord 0xF155).byteAt 0x300 :=
  ⟨by decide, _, rfl, by decide⟩

theorem witness_VfIsWrittenOnlyByItsWriters : ∃ t, exec (.addReg 1 2) (regs [(1, 0xFF), (2, 1)]) = .next t ∧
    t.getV 0xF ≠ (regs [(1, 0xFF), (2, 1)]).getV 0xF := ⟨_, rfl, by decide⟩

theorem witness_OnlyCallAndRetUseTheStack :
    ∃ t, step (State.reset.placeWord 0x2210) = .next t ∧ t.stack ≠ (State.reset.placeWord 0x2210).stack ∧
    t.sp ≠ (State.reset.placeWord 0x2210).sp := ⟨_, rfl, by decide, by decide⟩

theorem witness_StepsLeaveTheHostsStateAlone : ∃ t, step State.reset = .next t := ⟨_, rfl⟩

theorem witness_StepsKeepMemoryAndFont : busy.memoryInv ∧ ∃ t, step busy = .next t := ⟨memoryInv_busy, _, rfl⟩

theorem witness_StepsKeepThePcInRange : busy.pcInv ∧ ∃ t, step busy = .next t := ⟨pcInv_busy, _, rfl⟩

theorem witness_StepsKeepTheErrorTaxonomy :
    State.reset.modeInv ∧ ∃ t f, step State.reset = .next t ∧ t.mode = .halted f := ⟨rfl, _, _, rfl, rfl⟩

theorem witness_HostOperationsKeepTheInvariant :
    busy.Inv ∧ ∃ t, performAll [.setPressed 3 true, .step, .tickTimers, .clearKeys, .advance 0] busy = .next t :=
  ⟨witness_invariant, _, rfl⟩

theorem witness_ResetAndInitialisationMeetTheInvariant :
    0 < Config.default.cpuHz ∧ ∃ s, initialised Config.default [0x00, 0xE0] = .ok s := ⟨by decide, _, rfl⟩

theorem witness_InitialisationLoadsTheProgram :
    (List.replicate 3584 (0 : Byte)).length ≤ 3584 ∧ 3584 < (List.replicate 3585 (0 : Byte)).length := by
  rw [List.length_replicate, List.length_replicate]; decide

theorem witness_TicksCountTheTimersDown :
    State.reset.live ∧ (waiting 3 none).live ∧ halted.mode = .halted aRecord :=
  ⟨live_reset, live_waiting, rfl⟩

theorem witness_TheFirstPressOfAWaitIsLatched :
    ((∃ x, (waiting 3 none).mode = .waitingForKey x) ∧ (waiting 3 none).latch = none ∧
      (waiting 3 none).isPressed 4 = false) ∧
    (∀ x, State.reset.mode ≠ .waitingForKey x) ∧ (waiting 3 (some 4)).latch ≠ none ∧
    ((waiting 3 none).setPressed 4 true).isPressed 4 = true :=
  ⟨⟨⟨3, rfl⟩, rfl, by decide⟩, nofun, nofun, by decide⟩

theorem exists_of_nextHas {o : Host.Outcome State Fault Refusal} {p : State → Bool} (h : nextHas o p = true) :
    ∃ t, o = .next t ∧ p t = true := by
  cases o with
  | next t => exact ⟨t, rfl, h⟩
  | fault r => cases h
  | refused r => cases h

/-- One step due at 1.43 ms: the advance of a jump to itself takes it and returns Ok. -/
theorem advances :
    nextHas (advance 1428572 (State.reset.placeWord 0x1200)) (fun t => !t.isHalted && t.cpuDone == 1) := by
  decide

theorem witness_AdvanceIssuesExactlyWhatIsDue : (State.reset.placeWord 0x1200).schedInv ∧
    ∃ t, advance 1428572 (State.reset.placeWord 0x1200) = .next t ∧ t.live := by
  obtain ⟨t, ht, hp⟩ := exists_of_nextHas advances
  exact ⟨⟨by decide, by decide⟩, t, ht, live_of (by simp_all)⟩

theorem witness_AdvanceIsIndependentOfTheSplit :
    ∃ t, advance 1428572 (State.reset.placeWord 0x1200) = .next t ∧ t.live :=
  witness_AdvanceIssuesExactlyWhatIsDue.2

/-- At 50 ms, 34 steps and 2 ticks taken: step 35 and tick 3 are both due. -/
def atTie : State := { State.reset with tNs := 50000000, cpuDone := 34, tmrDone := 2 }

/-- At 20 ms, 11 steps and no tick taken: step 12 is due at 17.14 ms, after tick 1 at 16.67 ms. -/
def tickDueFirst : State := { State.reset with tNs := 20000000, cpuDone := 11, tmrDone := 0 }

/-- At 20 ms, 10 steps and no tick taken: step 11 is due at 15.71 ms, before tick 1. -/
def stepDueFirst : State := { State.reset with tNs := 20000000, cpuDone := 10, tmrDone := 0 }

theorem witness_AdvanceTakesEventsInTimeOrder_none :
    State.reset.live ∧ ¬ (State.reset.cpuDone + 1) * 1000000000 ≤ State.reset.tNs * State.reset.config.cpuHz ∧
    ¬ (State.reset.tmrDone + 1) * 1000000000 ≤ State.reset.tNs * 60 := ⟨live_reset, by decide, by decide⟩

theorem witness_AdvanceTakesEventsInTimeOrder_tick : ((atTie.tmrDone + 1) * 1000000000 ≤ atTie.tNs * 60 ∧
      (atTie.tmrDone + 1) * atTie.config.cpuHz ≤ (atTie.cpuDone + 1) * 60) ∧
    (tickDueFirst.tmrDone + 1) * 1000000000 ≤ tickDueFirst.tNs * 60 ∧
    (tickDueFirst.tmrDone + 1) * tickDueFirst.config.cpuHz ≤ (tickDueFirst.cpuDone + 1) * 60 := by decide

theorem witness_AdvanceTakesEventsInTimeOrder_step :
    (stepDueFirst.cpuDone + 1) * 1000000000 ≤ stepDueFirst.tNs * stepDueFirst.config.cpuHz ∧
    (stepDueFirst.cpuDone + 1) * 60 < (stepDueFirst.tmrDone + 1) * stepDueFirst.config.cpuHz := by decide

end Sys2Proof.Machine
end

