-- ==== Sys2Proof/Proofs/Reset.lean ====
section
/-!
The machine after reset (spec/10_state.md R36, spec/70_reset_and_hazards.md R270, R271): the reads of `State.powerOn` for
every parameter set, and initialisation with an empty program.
-/

namespace Sys2Proof.Machine

/-! ## The image an unlisted address reads as -/

theorem Memory.unlisted_font (c : Config) {a : Nat} (h : a < 80) : Memory.unlisted c a = c.font[a] := dif_pos h

theorem Memory.unlisted_above_font (c : Config) {a : Nat} (h : 80 ≤ a) : Memory.unlisted c a = 0 :=
  dif_neg (Nat.not_lt.mpr h)

/-! ## The reads of the power-on state -/

@[simp] theorem State.getV_powerOn (c : Config) (r : Nibble) : (State.powerOn c).getV r = 0 :=
  Vector.getElem_replicate r.isLt

/-- Memory lists nothing at power-on, so every address reads as the image (R270). -/
@[simp] theorem State.byteAt_powerOn (c : Config) (a : Nat) : (State.powerOn c).byteAt a = Memory.unlisted c a := rfl

/-! ## Initialisation with an empty program -/

/-- R270, R271: the empty program fits, and its load writes nothing. -/
@[simp] theorem initialised_nil (c : Config) : initialised c [] = .ok (State.powerOn c) := by
  have fits : programWellFormed [] = true := by decide
  rw [initialised, if_pos fits, State.putBytes]

/-- Settles O51: reset is power-on at the defaults; an empty program's load writes nothing, a scalar's value is
`State.powerOn`'s own, and a byte is the image's, FONT below 0x050 and 0x00 from there on. -/
theorem resetHoldsTheStatedValues : Obligations.ResetHoldsTheStatedValues :=
  ⟨initialised_nil Config.default, State.getV_powerOn Config.default, rfl, rfl, rfl, rfl, rfl, rfl, rfl,
    fun _ h => Memory.unlisted_font Config.default h, fun _ h => Memory.unlisted_above_font Config.default h⟩

end Sys2Proof.Machine
end

