-- ==== Sys2Proof/Proofs/PcInvariant.lean ====
section
/-!
What an instruction makes of pc and the stack (spec/41_flow.md R110 to R119), said once as `ExecFlow`, and from it the
invariant of pc (spec/10_state.md R23): pc at most 0x10FE, every return address in use at most 0x1000.
-/

namespace Sys2Proof

/-- The instructions that set pc or use the stack other than by going on or skipping (R110, R111, R112, R117). -/
def Instr.transfers : Instr → Bool
  | .ret | .jp _ | .call _ | .jpV0 _ => true
  | _ => false

end Sys2Proof

namespace Sys2Proof.Machine

/-! ## What an instruction makes of pc and the stack -/

@[simp] theorem State.putBytes_pc (s : State) (base : Nat) (bs : List Byte) : (s.putBytes base bs).pc = s.pc := by
  rw [State.putBytes_frame]

@[simp] theorem State.loadRegs_pc (s : State) (k : Nat) (bs : List Byte) : (s.loadRegs k bs).pc = s.pc := by
  rw [State.loadRegs_frame]

@[simp] theorem State.drawAt_pc (s : State) (x y n : Nibble) : (s.drawAt x y n).pc = s.pc := rfl

/-- R118: a skip leaves pc at the next instruction or at the one after it. -/
theorem State.skipIf_pc (s : State) (c : Bool) : (s.skipIf c).pc = s.pc ∨ (s.skipIf c).pc = s.pc + 2 := by
  cases c
  · exact .inl rfl
  · exact .inr rfl

/-- R118, R222: an instruction that is no transfer goes on, skips, or faults with pc as it was. -/
theorem exec_next_pc {i : Instr} {s t : State} (hi : i.transfers = false) (h : exec i s = .next t) :
    t.pc = s.pc ∨ t.pc = s.pc + 2 := by
  cases i with
  | ret | jp | call | jpV0 => cases hi
  | seImm | sneImm | seReg | sneReg => obtain rfl := next_inj h; exact State.skipIf_pc _ _
  | skp | sknp =>
    simp only [exec, execSkp, execSknp] at h
    split at h <;> obtain rfl := next_inj h
    · exact .inl rfl
    · exact State.skipIf_pc _ _
  | drw | ldFVx | ldBVx | ldMemVx | ldVxMem =>
    simp only [exec, execDrw, execLdFVx, execLdBVx, execLdMemVx, execLdVxMem] at h
    split at h <;> obtain rfl := next_inj h <;> simp
  | _ => obtain rfl := next_inj h; exact .inl rfl

/-- How an instruction moves pc and the stack. -/
inductive ExecFlow (s t : State) : Prop where
  | next (hpc : t.pc = s.pc ∨ t.pc = s.pc + 2) (hst : t.stack = s.stack) (hsp : t.sp = s.sp)
  | jump (nnn : Addr12) (hpc : t.pc = zextAddr nnn) (hst : t.stack = s.stack) (hsp : t.sp = s.sp)
  | jumpV0 (nnn : Addr12) (hpc : t.pc = zextAddr nnn + zextByte (s.getV 0)) (hst : t.stack = s.stack)
      (hsp : t.sp = s.sp)
  | call (nnn : Addr12) (hpc : t.pc = zextAddr nnn) (h16 : s.sp.val < 16)
      (hst : t.stack = s.stack.set s.sp.val s.pc h16) (hsp : t.sp.val = s.sp.val + 1)
  | ret (hpc : s.stack[t.sp.val]? = some t.pc) (hst : t.stack = s.stack) (hsp : s.sp.val = t.sp.val + 1)

/-- How an instruction moves pc and the stack. -/
theorem exec_flow {i : Instr} {s t : State} (h : exec i s = .next t) : ExecFlow s t := by
  cases hi : i.transfers with
  | false =>
    obtain hst := (exec_frame h).stack.resolve_right (by rintro ⟨_, rfl⟩; cases hi)
    obtain hsp := (exec_frame h).sp.resolve_right (by rintro (rfl | ⟨_, rfl⟩) <;> cases hi)
    exact .next (exec_next_pc hi h) hst hsp
  | true =>
    cases i with
    | ret =>
      simp only [exec, execRet] at h
      split at h
      · obtain rfl := next_inj h; exact .next (.inl rfl) rfl rfl
      · rename_i hp
        obtain ⟨hsp, hpc, hs⟩ := State.pop_eq_some hp
        obtain rfl := next_inj h
        exact .ret hpc (by rw [State.setPc_stack, hs]) hsp
    | call nnn =>
      simp only [exec, execCall] at h
      split at h
      · obtain rfl := next_inj h; exact .next (.inl rfl) rfl rfl
      · rename_i hp
        obtain ⟨h16, hsp, hst, -⟩ := State.push_eq_some hp
        obtain rfl := next_inj h
        exact .call nnn rfl h16 hst hsp
    | jp nnn => obtain rfl := next_inj h; exact .jump nnn rfl rfl rfl
    | jpV0 nnn => obtain rfl := next_inj h; exact .jumpV0 nnn rfl rfl rfl
    | _ => cases hi

/-! ## The invariant of pc -/

theorem zextAddr_toNat (nnn : Addr12) : (zextAddr nnn).toNat = nnn.toNat := by
  rw [zextAddr, BitVec.toNat_setWidth]; omega

theorem zextByte_toNat (b : Byte) : (zextByte b).toNat = b.toNat := by
  rw [zextByte, BitVec.toNat_setWidth]; omega

/-- The advance of pc by an instruction's two bytes does not wrap in the range of R23. -/
theorem toNat_add_two {w : Word} (h : w.toNat ≤ 0x10FE) : (w + 2).toNat = w.toNat + 2 := by
  rw [BitVec.toNat_add]; simp; omega

/-- R23: an instruction fetched from memory leaves pc at most 0xFFF + 0xFF = 0x10FE (the farthest jump, R117), and pushes
or returns to an address of at most 0x1000. -/
theorem exec_pcInv {i : Instr} {s t : State} (h : exec i s = .next t) (hpc : s.pc.toNat ≤ 0x1000)
    (hs : s.pcInv) : t.pcInv := by
  obtain ⟨-, hret⟩ := hs
  have keep : t.stack = s.stack → t.sp = s.sp → t.pc.toNat ≤ 0x10FE → t.pcInv := by
    intro hst hsp hle; exact ⟨hle, by rw [hst, hsp]; exact hret⟩
  cases exec_flow h with
  | next hn hst hsp =>
    refine keep hst hsp ?_
    rcases hn with hn | hn
    · rw [hn]; omega
    · rw [hn, toNat_add_two (by omega)]; omega
  | jump nnn hn hst hsp => exact keep hst hsp (by rw [hn, zextAddr_toNat]; omega)
  | jumpV0 nnn hn hst hsp =>
    refine keep hst hsp ?_
    rw [hn, BitVec.toNat_add, zextAddr_toNat, zextByte_toNat]; omega
  | call nnn hn h16 hst hsp =>
    refine ⟨by rw [hn, zextAddr_toNat]; omega, fun k hk hlt => ?_⟩
    simp only [hst, Vector.getElem_set]
    split
    · exact hpc
    · exact hret k hk (by omega)
  | ret hn hst hsp =>
    have h16 : t.sp.val < 16 := by omega
    have hentry : s.stack[t.sp.val] = t.pc := by simpa [h16] using hn
    refine ⟨?_, fun k hk hlt => ?_⟩
    · have := hret t.sp.val h16 (by omega)
      rw [hentry] at this; omega
    · simp only [hst]; exact hret k hk (by omega)

/-- Settles O47: a step that runs no instruction leaves the stack alone and pc where it was or advanced from at most
0xFFE, and an instruction runs with pc at most 0x1000. -/
theorem stepsKeepThePcInRange : Obligations.StepsKeepThePcInRange := by
  intro s t hs h
  have advanced (hle : s.pc.toNat ≤ 0xFFE) : (s.pc + 2).toNat ≤ 0x1000 := by
    rw [toNat_add_two (by omega)]; omega
  have hadv (hle : s.pc.toNat ≤ 0xFFE) : (s.setPc (s.pc + 2)).pcInv := ⟨(advanced hle).trans (by decide), hs.2⟩
  rcases step_cases h with ⟨f, -, rfl⟩ | ⟨x, -, rfl⟩ | ⟨-, ⟨a, -, rfl⟩ | ⟨hle, -, rfl⟩ | ⟨i, hle, -, hi⟩⟩
  · exact hs
  · rw [State.waitStep_frame]; exact hs
  · exact hs
  · rw [State.invalidWord_frame]; exact hadv hle
  · exact exec_pcInv hi (advanced hle) (hadv hle)

end Sys2Proof.Machine
end

