-- ==== Sys2Proof/Proofs/ErrorTaxonomy.lean ====
section
/-!
The invariant of mode, latch and fault record (spec/10_state.md R30 to R32, spec/60_exceptions.md R220, R221): every record
a step raises is one of the error table's. A record an instruction raises holds the instruction's encoding (assumption 5),
which decodes to it (spec/30_encoding.md R84).
-/

namespace Sys2Proof

/-- R82, R84: the fields of a format's word are its operands, so the decoder finds the instruction again. -/
theorem decodeWord_encode (i : Instr) : decodeWord (encode i) = some i := by
  cases i with
  | cls | ret => decide
  | jp | call | ldI | jpV0 => simp [encode, decodeWord, encodeNNN_fields]
  | seImm | sneImm | ldImm | addImm | rnd => simp [encode, decodeWord, encodeXKK_fields]
  | skp | sknp => simp [encode, decodeWord, encodeXKK_fields, decodeE]
  | ldVxDt | ldVxK | ldDtVx | ldStVx | addIVx | ldFVx | ldBVx | ldMemVx | ldVxMem =>
    simp [encode, decodeWord, encodeXKK_fields, decodeF]
  | seReg | sneReg | drw => simp [encode, decodeWord, encodeXYN_fields]
  | ldReg | or | and | xor | addReg | sub | shr | subn | shl =>
    simp [encode, decodeWord, encodeXYN_fields, decode8]

end Sys2Proof

namespace Sys2Proof.Machine

/-! ## The invariant, mode by mode -/

theorem State.modeInv_of_running {s : State} (hm : s.mode = .running) (hl : s.latch = none) : s.modeInv := by
  rw [State.modeInv, hm]; exact hl

theorem State.latch_of_running {s : State} (h : s.modeInv) (hm : s.mode = .running) : s.latch = none := by
  rw [State.modeInv, hm] at h; exact h

theorem State.modeInv_of_waiting {s : State} {x : Nibble} (hm : s.mode = .waitingForKey x) : s.modeInv := by
  rw [State.modeInv, hm]; trivial

/-- R222: error entry with a record of the taxonomy, nothing latched. -/
theorem State.modeInv_raise {s : State} {f : FaultRecord} (hl : s.latch = none) (hf : f.ok) : (s.raise f).modeInv :=
  ⟨hl, hf⟩

/-! ## The ways a step can enter or leave a mode -/

/-- R183: the waiting step goes on waiting, or ends the wait and clears the latch. -/
theorem State.modeInv_waitStep {s : State} {x : Nibble} (hm : s.mode = .waitingForKey x) : (s.waitStep x).modeInv := by
  rw [State.waitStep_eq]
  cases s.latch with
  | none => exact State.modeInv_of_waiting hm
  | some k => exact State.modeInv_of_running rfl rfl

/-- R32, R56: a fetch fault names the first of pc and pc + 1 above 0xFFF. -/
theorem State.modeInv_raiseFetch {s : State} {a : Nat} (hl : s.latch = none)
    (ha : lowestFault readFaults s.pc.toNat 2 = some a) : (s.raiseFetch a).modeInv := by
  obtain ⟨⟨hge, hlt⟩, hfault, -⟩ := lowestFault_eq_some.1 ha
  have hab : 0xFFF < a := by simpa [readFaults] using hfault
  have hor : a = s.pc.toNat ∨ a = s.pc.toNat + 1 := by omega
  exact State.modeInv_raise hl ⟨hab, hor⟩

/-- R91: an invalid word halts with its record, or does nothing more. -/
theorem State.modeInv_invalidWord {s : State} {w : Word} (hm : s.mode = .running) (hl : s.latch = none)
    (hw : decodeWord w = none) : (s.invalidWord w).modeInv := by
  unfold State.invalidWord
  cases s.config.invalidOpcodePolicy with
  | halt => exact State.modeInv_raise hl hw
  | skip => exact State.modeInv_of_running hm hl

/-- R221: however an instruction ends, its record is one it can raise. -/
theorem exec_modeInv {i : Instr} {s t : State} (h : exec i s = .next t) (hm : s.mode = .running)
    (hl : s.latch = none) : t.modeInv := by
  have hw := decodeWord_encode
  cases exec_end h with
  | underflow ht hi => subst ht hi; exact State.modeInv_raise hl rfl
  | overflow ht hi =>
    obtain ⟨nnn, rfl⟩ := hi; subst ht
    exact State.modeInv_raise hl ⟨nnn, hw _⟩
  | read a ha ht hi =>
    subst ht; refine State.modeInv_raise hl ⟨ha, ?_⟩
    rcases hi with ⟨x, y, n, rfl⟩ | ⟨x, rfl⟩
    · exact .inl ⟨x, y, n, hw _⟩
    · exact .inr ⟨x, hw _⟩
  | write a ha ht hi =>
    subst ht; refine State.modeInv_raise hl ⟨ha, ?_⟩
    obtain ⟨x, rfl | rfl⟩ := hi
    · exact ⟨x, .inl (hw _)⟩
    · exact ⟨x, .inr (hw _)⟩
  | operand v hv ht hi =>
    subst ht; refine State.modeInv_raise hl ⟨hv, ?_⟩
    obtain ⟨x, rfl | rfl | rfl⟩ := hi
    · exact ⟨x, .inl (hw _)⟩
    · exact ⟨x, .inr (.inl (hw _))⟩
    · exact ⟨x, .inr (.inr (hw _))⟩
  | wait x _ ht => exact State.modeInv_of_waiting ht
  | done hmode hlatch => exact State.modeInv_of_running (hmode.trans hm) (hlatch.trans hl)

/-- Settles O48: each way a step goes keeps the invariant of mode and latch, and raises only records of the taxonomy. -/
theorem stepsKeepTheErrorTaxonomy : Obligations.StepsKeepTheErrorTaxonomy := by
  intro s t hs h
  rcases step_cases h with ⟨f, -, rfl⟩ | ⟨x, hm, rfl⟩ | ⟨hm, hrun⟩
  · exact hs
  · exact State.modeInv_waitStep hm
  · have hl := State.latch_of_running hs hm
    rcases hrun with ⟨a, ha, rfl⟩ | ⟨-, hw, rfl⟩ | ⟨i, -, -, hi⟩
    · exact State.modeInv_raiseFetch hl ha
    · exact State.modeInv_invalidWord hm hl hw
    · exact exec_modeInv hi hm hl

end Sys2Proof.Machine
end

