-- ==== Sys2Proof/Proofs/StepFrames.lean ====
section
/-!
What steps and instructions leave alone: the stack (spec/10_state.md R25, R26), the host's part of the state (R29, R33, R35)
and VF (R21, R34).
-/

namespace Sys2Proof

/-- The instructions that write a register: those with a destination x (R131 to R142, R184, R204) and DRW, which writes VF
(R162). The waiting step's write of the key (R183) is no instruction's. -/
def Instr.writesV : Instr → Bool
  | .ldImm .. | .addImm .. | .ldReg .. | .or .. | .and .. | .xor .. | .addReg .. | .sub .. | .shr .. | .subn .. | .shl ..
  | .rnd .. | .drw .. | .ldVxDt .. | .ldVxMem .. => true
  | _ => false

end Sys2Proof

namespace Sys2Proof.Machine

/-! ## Steps: the stack and the host's state -/

/-- A step that runs no instruction changes V, pc, the latch and the mode at most; one that runs an instruction has the
instruction's frame, from the state whose pc the fetch has advanced (R91). -/
theorem step_frame {s t : State} (h : step s = .next t) :
    t = { s with v := t.v, pc := t.pc, latch := t.latch, mode := t.mode } ∨
    ∃ i, decodeWord s.fetchWord = some i ∧ ExecFrame i (s.setPc (s.pc + 2)) t := by
  rcases step_cases h with ⟨f, -, rfl⟩ | ⟨x, -, rfl⟩ | ⟨-, ⟨a, -, rfl⟩ | ⟨-, -, rfl⟩ | ⟨i, -, hw, hi⟩⟩
  · exact .inl rfl
  · rw [State.waitStep_frame]; exact .inl rfl
  · exact .inl rfl
  · rw [State.invalidWord_frame]; exact .inl rfl
  · exact .inr ⟨i, hw, exec_frame hi⟩

/-- Settles O44: only an instruction that is a CALL, or for SP a RET, is excepted from its frame. -/
theorem onlyCallAndRetUseTheStack : Obligations.OnlyCallAndRetUseTheStack := by
  intro s t h
  rcases step_frame h with ht | ⟨i, hw, hf⟩
  · rw [ht]; exact ⟨absurd rfl, absurd rfl⟩
  · rw [hw]
    constructor
    · intro hne
      obtain ⟨nnn, rfl⟩ := hf.stack.resolve_left hne
      exact ⟨nnn, rfl⟩
    · intro hne
      rcases hf.sp.resolve_left hne with rfl | ⟨nnn, rfl⟩
      · exact .inl rfl
      · exact .inr ⟨nnn, rfl⟩

/-- Settles O45: the host's fields are in every frame, and only RND is excepted from the frame of the draws. -/
theorem stepsLeaveTheHostsStateAlone : Obligations.StepsLeaveTheHostsStateAlone := by
  intro s t h
  rcases step_frame h with ht | ⟨i, hw, hf⟩
  · rw [ht]; exact ⟨rfl, rfl, rfl, rfl, rfl, .inl rfl⟩
  · refine ⟨hf.keys, hf.config, hf.tNs, hf.cpuDone, hf.tmrDone, ?_⟩
    rcases hf.rngDraws with hr | ⟨hr, x, kk, rfl⟩
    · exact .inl hr
    · exact .inr ⟨hr, x, kk, hw⟩

/-! ## Instructions: VF -/

@[simp] theorem State.putBytes_v (s : State) (base : Nat) (bs : List Byte) : (s.putBytes base bs).v = s.v := by
  rw [State.putBytes_frame]

theorem State.getV_eq_of_v {s t : State} (h : t.v = s.v) (r : Nibble) : t.getV r = s.getV r := by
  simp only [State.getV, h]

/-- A register a write changes is the write's destination. -/
theorem State.eq_of_getV_setV_ne {s : State} {x r : Nibble} {b : Byte} (h : (s.setV x b).getV r ≠ s.getV r) : x = r := by
  by_contra hx
  exact h (State.getV_setV_ne s hx b)

/-- R118: a skip writes no register. -/
@[simp] theorem State.skipIf_v (s : State) (c : Bool) : (s.skipIf c).v = s.v := by
  rw [State.skipIf_eq, State.setPc_v]

/-- R21, R34: an instruction with no destination register that writes no flag keeps V0..VF, also where it faults. -/
theorem exec_keeps_v {i : Instr} {s t : State} (hi : i.writesV = false) (h : exec i s = .next t) : t.v = s.v := by
  cases i with
  | ret =>
    simp only [exec, execRet] at h
    split at h
    · obtain rfl := next_inj h; rfl
    · rename_i hp
      obtain ⟨-, -, hs⟩ := State.pop_eq_some hp
      obtain rfl := next_inj h
      rw [State.setPc_v, hs]
  | call nnn =>
    simp only [exec, execCall] at h
    split at h
    · obtain rfl := next_inj h; rfl
    · rename_i hp
      obtain ⟨-, -, -, hs⟩ := State.push_eq_some hp
      obtain rfl := next_inj h
      rw [State.setPc_v, hs]
  | skp | sknp | ldFVx | ldBVx | ldMemVx =>
    simp only [exec, execSkp, execSknp, execLdFVx, execLdBVx, execLdMemVx] at h
    split at h <;> obtain rfl := next_inj h <;> simp
  | cls | ldI | jp | jpV0 | addIVx | ldVxK | ldDtVx | ldStVx => obtain rfl := next_inj h; rfl
  | seImm | sneImm | seReg | sneReg => obtain rfl := next_inj h; exact State.skipIf_v _ _
  | _ => cases hi

/-- R204: a block load of V0..Vx changes VF only where x is 0xF. -/
theorem execLdVxMem_vf {x : Nibble} {s t : State} (h : execLdVxMem x s = .next t) (hne : t.getV 0xF ≠ s.getV 0xF) :
    x = 0xF := by
  unfold execLdVxMem at h
  split at h <;> obtain rfl := next_inj h
  · exact absurd rfl hne
  · by_contra hx
    have hlt : x.toNat < 15 := by
      have : x.toNat ≠ 15 := fun h15 => hx (BitVec.eq_of_toNat_eq h15)
      omega
    apply hne
    rw [State.getV_setI, State.getV_loadRegs _ (by simp [blockSize]; omega), if_neg (by simp [blockSize]; omega)]

/-- Settles O43: a flag writer is one of those named, an instruction with a destination changes that register alone, and
every other instruction keeps the registers. -/
theorem vfIsWrittenOnlyByItsWriters : Obligations.VfIsWrittenOnlyByItsWriters := by
  intro i s t h hne
  cases i with
  | addReg x y | sub x y | shr x y | subn x y | shl x y => exact .inl ⟨x, y, by simp⟩
  | drw x y n => exact .inr (.inl ⟨x, y, n, rfl⟩)
  | ldImm x kk | addImm x kk | rnd x kk =>
    obtain rfl := next_inj h
    obtain rfl := State.eq_of_getV_setV_ne hne
    exact .inr (.inr (.inl ⟨kk, by simp⟩))
  | ldReg x y | or x y | and x y | xor x y =>
    obtain rfl := next_inj h
    obtain rfl := State.eq_of_getV_setV_ne hne
    exact .inr (.inr (.inr (.inl ⟨y, by simp⟩)))
  | ldVxDt x =>
    obtain rfl := next_inj h
    obtain rfl := State.eq_of_getV_setV_ne hne
    simp
  | ldVxMem x =>
    obtain rfl := execLdVxMem_vf h hne
    simp
  | _ => exact absurd (State.getV_eq_of_v (exec_keeps_v rfl h) 0xF) hne

end Sys2Proof.Machine
end

