-- ==== Sys2Proof/Proofs/Initialisation.lean ====
section
/-!
Initialisation (spec/70_reset_and_hazards.md R270, R271, spec/10_state.md R36): a program that fits is stored over the
power-on state, which changes memory alone, and the result meets the invariant.
-/

namespace Sys2Proof.Machine

/-! ## When a program fits -/

theorem programWellFormed_iff {p : List Byte} : programWellFormed p = true ↔ p.length ≤ 3584 := decide_eq_true_iff

/-- R270: the core a program that fits is loaded into. -/
theorem initialised_of_fits (c : Config) {p : List Byte} (h : p.length ≤ 3584) :
    initialised c p = .ok ((State.powerOn c).putBytes 0x200 p) :=
  if_pos (programWellFormed_iff.2 h)

/-- R270: a longer program is LoadError with its length. -/
theorem initialised_of_too_long (c : Config) {p : List Byte} (h : 3584 < p.length) :
    initialised c p = .error ⟨p.length⟩ :=
  if_neg (by rw [programWellFormed_iff]; omega)

/-- Initialisation succeeds only for a program that fits. -/
theorem initialised_eq_ok {c : Config} {p : List Byte} {s : State} (h : initialised c p = .ok s) :
    p.length ≤ 3584 ∧ s = (State.powerOn c).putBytes 0x200 p := by
  rcases Nat.lt_or_ge 3584 p.length with hlong | hfits
  · rw [initialised_of_too_long c hlong] at h; cases h
  · rw [initialised_of_fits c hfits] at h; cases h; exact ⟨hfits, rfl⟩

/-! ## Memory after the load -/

section Load
variable (c : Config) {p : List Byte} (hp : p.length ≤ 3584)
include hp

/-- R270: a program that fits ends at or below 0xFFF. -/
theorem program_in_memory : 0x200 + p.length ≤ memSize := by
  rw [memSize]; omega

/-- R270: the program's bytes stand at 0x200, every other byte is the image's. -/
theorem byteAt_loaded (a : Nat) :
    ((State.powerOn c).putBytes 0x200 p).byteAt a =
      if 0x200 ≤ a ∧ a < 0x200 + p.length then p.getD (a - 0x200) 0 else Memory.unlisted c a :=
  State.byteAt_putBytes (Memory.wf_nil c) (program_in_memory hp) a

/-- R51: the program leaves the font region to FONT. -/
theorem byteAt_loaded_font (a : Nat) (h : a < 80) : ((State.powerOn c).putBytes 0x200 p).byteAt a = c.font[a] := by
  rw [byteAt_loaded c hp, if_neg (by omega), Memory.unlisted_font c h]

theorem byteAt_loaded_program (k : Nat) (hk : k < p.length) :
    p[k]? = some (((State.powerOn c).putBytes 0x200 p).byteAt (0x200 + k)) := by
  rw [byteAt_loaded c hp, if_pos (by omega), Nat.add_sub_cancel_left, List.getD_eq_getElem p 0 hk,
    List.getElem?_eq_getElem hk]

theorem byteAt_loaded_rest (a : Nat) (hfont : 80 ≤ a) (hout : a < 0x200 ∨ 0x200 + p.length ≤ a) :
    ((State.powerOn c).putBytes 0x200 p).byteAt a = 0 := by
  rw [byteAt_loaded c hp, if_neg (by omega), Memory.unlisted_above_font c hfont]

/-- R36: the invariant holds after the load. Memory is the load's; everything else is the power-on state's. -/
theorem inv_loaded (hc : 0 < c.cpuHz) : ((State.powerOn c).putBytes 0x200 p).Inv := by
  have hmem : ((State.powerOn c).putBytes 0x200 p).memoryInv := by
    rw [State.memoryInv, State.putBytes_config]
    exact ⟨State.wf_putBytes (Memory.wf_nil c) (program_in_memory hp), byteAt_loaded_font c hp⟩
  rw [State.putBytes_frame] at hmem ⊢
  exact {
    config := decide_eq_true hc
    memory := hmem
    pc := ⟨show (0x200#16).toNat ≤ 0x10FE by decide, fun k _ hk => absurd hk (Nat.not_lt_zero k)⟩
    mode := rfl
    sched := by simp [State.schedInv, State.powerOn] }

end Load

/-! ## The statements -/

/-- Settles O52: memory is the image with the program over it, and the load leaves every other field at its power-on
value. -/
theorem initialisationLoadsTheProgram : Obligations.InitialisationLoadsTheProgram := by
  refine fun c p => ⟨fun hp => ⟨_, initialised_of_fits c hp, byteAt_loaded_font c hp, byteAt_loaded_program c hp,
    byteAt_loaded_rest c hp, ?_⟩, initialised_of_too_long c⟩
  rw [State.putBytes_frame]
  refine ⟨State.getV_powerOn c, rfl, rfl, rfl, fun k hk => Vector.getElem_replicate hk, rfl, rfl, fun r col hr hcol => ?_,
    fun k => Vector.getElem_replicate k.isLt, rfl, rfl, rfl, rfl, rfl, rfl, rfl⟩
  simp [State.powerOn]

/-- Settles O50: reset is initialisation with the empty program at the defaults, whose CPU_HZ is 700. -/
theorem resetAndInitialisationMeetTheInvariant : Obligations.ResetAndInitialisationMeetTheInvariant := by
  have initialised_inv (c : Config) (p : List Byte) (s : State) (hc : 0 < c.cpuHz) (h : initialised c p = .ok s) :
      s.Inv := by
    obtain ⟨hp, rfl⟩ := initialised_eq_ok h
    exact inv_loaded c hp hc
  exact ⟨initialised_inv Config.default [] State.reset (by decide) (initialised_nil Config.default), initialised_inv⟩

end Sys2Proof.Machine
end

