-- ==== Sys2Proof/Proofs/MemoryTransfer.lean ====
section
/-!
Memory under steps and instructions (spec/20_memory.md R50 to R66): all a step can do to memory, said once as `StepMem`, and
from it the invariant of memory and who may change a byte; the check of several addresses before any access (R57); what a
block store leaves for a load and for a fetch (R63, R66).
-/

namespace Sys2Proof.Machine

/-! ## What a step makes of memory -/

theorem State.byteAt_congr {s t : State} (hc : t.config = s.config) (hm : t.mem = s.mem) (a : Nat) :
    t.byteAt a = s.byteAt a := by
  rw [State.byteAt, State.byteAt, hc, hm]

theorem State.setPc_putBytes (s : State) (w : Word) (base : Nat) (bs : List Byte) :
    (s.setPc w).putBytes base bs = (s.putBytes base bs).setPc w := by
  induction bs generalizing s base with
  | nil => rfl
  | cons b rest ih => exact ih (s.putByte base b) (base + 1)

/-- R57, R60: a step keeps memory, or its instruction is Fx33 or Fx55 and stores bytes from `I` on, all in 0x050..0xFFF. -/
inductive StepMem (s t : State) : Prop where
  | keep (hmem : t.mem = s.mem)
  | store (bs : List Byte) (hmem : t.mem = (s.putBytes s.i.toNat bs).mem) (hlow : 0x50 ≤ s.i.toNat)
      (hhigh : s.i.toNat + bs.length ≤ memSize)
      (hword : ∃ x, (decodeWord s.fetchWord = some (.ldBVx x) ∧ bs.length = 3) ∨
        (decodeWord s.fetchWord = some (.ldMemVx x) ∧ bs.length = x.toNat + 1))

/-- What a step makes of memory. -/
theorem step_mem {s t : State} (h : step s = .next t) : StepMem s t := by
  rcases step_frame h with ht | ⟨i, hw, hf⟩
  · rw [ht]; exact .keep rfl
  · rcases hf.mem with hm | ⟨x, rfl, hlow, hhigh, rfl⟩ | ⟨x, rfl, hlow, hhigh, rfl⟩
    · exact .keep hm
    · refine .store (bcdDigits (s.getV x)) ?_ hlow hhigh ⟨x, .inl ⟨hw, rfl⟩⟩
      rw [State.setPc_putBytes]; rfl
    · have hlen := State.length_regsUpTo s x
      refine .store (s.regsUpTo x) ?_ hlow (by rw [hlen]; exact hhigh) ⟨x, .inr ⟨hw, hlen⟩⟩
      rw [State.setPc_putBytes]; rfl

theorem step_config {s t : State} (h : step s = .next t) : t.config = s.config := by
  obtain ⟨-, hc, -⟩ := stepsLeaveTheHostsStateAlone s t h
  exact hc

/-- A run of stores above the font region and inside the space keeps the invariant of memory. -/
theorem State.memoryInv_putBytes {s : State} (h : s.memoryInv) {base : Nat} {bs : List Byte} (hlow : 0x50 ≤ base)
    (hhigh : base + bs.length ≤ memSize) : (s.putBytes base bs).memoryInv := by
  obtain ⟨hwf, hfont⟩ := h
  rw [State.memoryInv, State.putBytes_config]
  refine ⟨State.wf_putBytes hwf hhigh, fun a ha => ?_⟩
  rw [State.byteAt_putBytes hwf hhigh, if_neg (by omega), hfont a ha]

/-- The invariant of memory speaks of the parameters and of memory alone. -/
theorem State.memoryInv_congr {s t : State} (hc : t.config = s.config) (hm : t.mem = s.mem) (h : s.memoryInv) :
    t.memoryInv := by
  obtain ⟨hwf, hfont⟩ := h
  rw [State.memoryInv, hc, hm]
  refine ⟨hwf, fun a ha => ?_⟩
  rw [State.byteAt_congr hc hm, hfont a ha]

/-- Settles O46: a step keeps memory, or stores above the font region and inside the space. -/
theorem stepsKeepMemoryAndFont : Obligations.StepsKeepMemoryAndFont := by
  intro s t hs h
  have hc := step_config h
  cases step_mem h with
  | keep hm => exact State.memoryInv_congr hc hm hs
  | store bs hm hlow hhigh _ =>
    have hstored := State.memoryInv_putBytes hs hlow hhigh
    exact State.memoryInv_congr (hc.trans (State.putBytes_config s _ bs).symm) hm hstored

/-- Settles O42: a byte that changed lies among the bytes a step stored. -/
theorem onlyStoresChangeMemory : Obligations.OnlyStoresChangeMemory := by
  intro s t hwf h a hne
  have hc := step_config h
  cases step_mem h with
  | keep hm => exact absurd (State.byteAt_congr hc hm a) hne
  | store bs hm hlow hhigh hword =>
    have hin : s.i.toNat ≤ a ∧ a < s.i.toNat + bs.length := by
      by_contra hout
      rw [State.byteAt_congr (hc.trans (State.putBytes_config s _ bs).symm) hm a, State.byteAt_putBytes hwf hhigh,
        if_neg hout] at hne
      exact hne rfl
    obtain ⟨x, ⟨hw, hlen⟩ | ⟨hw, hlen⟩⟩ := hword
    · exact ⟨x, .inl ⟨hw, by omega⟩⟩
    · exact ⟨x, .inr ⟨hw, by omega⟩⟩

/-! ## The check of several addresses (R57) -/

/-- R56: the addresses an access of each kind faults on; a fetch faults where a read does. -/
def Access.faults : Access → Nat → Bool
  | .write => writeFaults
  | _ => readFaults

theorem Access.faults_iff {k : Access} {a : Nat} : k.faults a = true ↔ 0xFFF < a ∨ (k = .write ∧ a ≤ 0x04F) := by
  cases k <;> simp [Access.faults, readFaults, writeFaults]

/-- R57: the fault of an access of `n` bytes is at `a` when `a` is one of them, faults, and no lower one does. -/
theorem Access.lowestFault_eq {k : Access} {base n a : Nat} (hge : base ≤ a) (hlt : a < base + n)
    (hfault : 0xFFF < a ∨ (k = .write ∧ a ≤ 0x04F))
    (hbelow : ∀ b, base ≤ b → b < a → ¬ (0xFFF < b ∨ (k = .write ∧ b ≤ 0x04F))) :
    lowestFault k.faults base n = some a := by
  refine lowestFault_eq_some.2 ⟨⟨hge, hlt⟩, Access.faults_iff.2 hfault, fun b hb hba => ?_⟩
  rw [Bool.eq_false_iff, ne_eq, Access.faults_iff]
  exact hbelow b hb hba

section Faults
variable {s : State} {a : Nat}

theorem exec_drw_fault (x y : Nibble) {n : Nibble} (h : lowestFault readFaults s.i.toNat n.toNat = some a) :
    exec (.drw x y n) s = .next (s.raiseIn (.drw x y n) .addressFault (.access a .read)) := by
  simp only [exec, execDrw, h]

theorem exec_ldBVx_fault (x : Nibble) (h : lowestFault writeFaults s.i.toNat 3 = some a) :
    exec (.ldBVx x) s = .next (s.raiseIn (.ldBVx x) .addressFault (.access a .write)) := by
  simp only [exec, execLdBVx, h]

theorem exec_ldMemVx_fault {x : Nibble} (h : lowestFault writeFaults s.i.toNat (x.toNat + 1) = some a) :
    exec (.ldMemVx x) s = .next (s.raiseIn (.ldMemVx x) .addressFault (.access a .write)) := by
  simp only [exec, execLdMemVx, blockSize, h]

theorem exec_ldVxMem_fault {x : Nibble} (h : lowestFault readFaults s.i.toNat (x.toNat + 1) = some a) :
    exec (.ldVxMem x) s = .next (s.raiseIn (.ldVxMem x) .addressFault (.access a .read)) := by
  simp only [exec, execLdVxMem, blockSize, h]

end Faults

/-- Settles O37: the premises make `a` the lowest fault of the access, and each of the four instructions raises it. -/
theorem multiByteAccessesAreAllOrNothing : Obligations.MultiByteAccessesAreAllOrNothing := by
  intro s i x y n count a k hinstr hge hlt hfault hbelow
  have hlow := Access.lowestFault_eq hge hlt hfault hbelow
  rcases hinstr with ⟨rfl, rfl, rfl⟩ | ⟨rfl, rfl, rfl⟩ | ⟨rfl, rfl, rfl⟩ | ⟨rfl, rfl, rfl⟩
  · exact exec_drw_fault x y hlow
  · exact exec_ldBVx_fault x hlow
  · exact exec_ldMemVx_fault hlow
  · exact exec_ldVxMem_fault hlow

/-! ## What a block store leaves -/

/-- A block store that raised no error had every address to write in 0x050..0xFFF, and stored V0..Vx. -/
theorem exec_ldMemVx_live {s t : State} {x : Nibble} (h : exec (.ldMemVx x) s = .next t) (hlive : t.live) :
    s.i.toNat + (x.toNat + 1) ≤ memSize ∧ t = (s.putBytes s.i.toNat (s.regsUpTo x)).setI (s.indexAfter x) := by
  cases hf : lowestFault writeFaults s.i.toNat (x.toNat + 1) with
  | some a =>
    rw [exec_ldMemVx_fault hf] at h
    obtain rfl := next_inj h
    exact absurd rfl (hlive _)
  | none =>
    simp only [exec, execLdMemVx, blockSize, hf] at h
    have hbounds := (lowestFault_write_none.1 hf).resolve_left (Nat.succ_ne_zero _)
    exact ⟨hbounds.2, (next_inj h).symm⟩

/-- R203: after a block store that raised no error, the byte at I + r is the value V[r] had. -/
theorem exec_ldMemVx_byteAt {s t : State} {x : Nibble} (hwf : Memory.wf s.config s.mem = true)
    (h : exec (.ldMemVx x) s = .next t) (hlive : t.live) {r : Nibble} (hr : r.toNat ≤ x.toNat) :
    t.byteAt (s.i.toNat + r.toNat) = s.getV r := by
  obtain ⟨hhigh, rfl⟩ := exec_ldMemVx_live h hlive
  have hlen := State.length_regsUpTo s x
  rw [State.byteAt_setI, State.byteAt_putBytes hwf (by omega), if_pos (by omega), Nat.add_sub_cancel_left,
    List.getD_eq_getElem _ _ (by omega), State.getElem_regsUpTo, BitVec.ofNat_toNat, BitVec.setWidth_eq]

/-- R204: a block load whose addresses are inside the space gives V[r] the byte at I + r. -/
theorem exec_ldVxMem_getV {s : State} {x : Nibble} (h : s.i.toNat + (x.toNat + 1) ≤ memSize) :
    ∃ t, exec (.ldVxMem x) s = .next t ∧
      ∀ r : Nibble, r.toNat ≤ x.toNat → t.getV r = s.byteAt (s.i.toNat + r.toNat) := by
  have hf : lowestFault readFaults s.i.toNat (x.toNat + 1) = none := lowestFault_read_none.2 (.inr h)
  refine ⟨(s.loadRegs 0 (s.bytesFrom s.i.toNat (blockSize x))).setI (s.indexAfter x), ?_, fun r hr => ?_⟩
  · simp only [exec, execLdVxMem, blockSize, hf]
  · have hlen : (s.bytesFrom s.i.toNat (blockSize x)).length = x.toNat + 1 := State.length_bytesFrom s _ _
    rw [State.getV_setI, State.getV_loadRegs s (by omega), if_pos (by omega), Nat.sub_zero,
      List.getD_eq_getElem _ _ (by omega), State.getElem_bytesFrom]

/-- Settles O38: the load reads, at I + r, the byte the store put there. -/
theorem storedRegistersLoadBack : Obligations.StoredRegistersLoadBack := by
  intro s t u x hwf h hlive hi hbytes
  obtain ⟨hhigh, -⟩ := exec_ldMemVx_live h hlive
  obtain ⟨q, hq, hload⟩ := exec_ldVxMem_getV (s := u) (x := x) (by rw [hi]; exact hhigh)
  refine ⟨q, hq, fun r hr => ?_⟩
  rw [hload r hr, hi, hbytes, exec_ldMemVx_byteAt hwf h hlive hr]

/-- R91: a step in mode Running whose two bytes are inside the space runs the instruction they decode to. -/
theorem step_of_decode {s : State} {i : Instr} (hm : s.mode = .running) (hpc : s.pc.toNat + 2 ≤ memSize)
    (hw : decodeWord s.fetchWord = some i) : step s = exec i (s.setPc (s.pc + 2)) := by
  have hf : lowestFault readFaults s.pc.toNat 2 = none := lowestFault_read_none.2 (.inr hpc)
  simp only [step, State.startStep, hm, State.fetchDecode, hf, hw]

/-- Settles O39: the store leaves mode and pc, and V0, V1 at I = pc and I + 1 make the word the next step fetches. -/
theorem storedWordIsFetchedAtOnce : Obligations.StoredWordIsFetchedAtOnce := by
  intro s t x i hwf hmode h hlive hx hpc hw
  have hV0 : t.byteAt s.i.toNat = s.getV 0 := exec_ldMemVx_byteAt hwf h hlive (r := 0) (Nat.zero_le _)
  have hV1 : t.byteAt (s.i.toNat + 1) = s.getV 1 := exec_ldMemVx_byteAt hwf h hlive (r := 1) hx
  obtain ⟨hhigh, ht⟩ := exec_ldMemVx_live h hlive
  have htmode : t.mode = .running := by rw [ht, State.putBytes_frame]; exact hmode
  have htpc : t.pc = s.i := by rw [ht, State.setI_pc, State.putBytes_pc, hpc]
  refine step_of_decode htmode (by rw [htpc]; omega) ?_
  rw [State.fetchWord, htpc, hV0, hV1]
  exact hw

end Sys2Proof.Machine
end

