-- ==== Sys2Proof/Proofs/Encoding.lean ====
section
/-!
The decoder, the encoder and the opcode table (spec/30_encoding.md R81 to R86). A word is put together again from its fields
in each format of R82, so a decoded instruction's encoding is the word; and the match of a row of the table says what the
decoder reads of the word's fields, so the decoder answers an instruction of that row.
-/

namespace Sys2Proof

/-- Settles O7: the decoder reads back the operands of each format. -/
theorem decodeOfEncodeIsTheInstruction : Obligations.DecodeOfEncodeIsTheInstruction := decodeWord_encode

/-! ## A word from its fields (R81, R82) -/

theorem encodeNNN_of_fields {w : Word} {op : Nibble} (hop : (opField w).toNat = op.toNat) :
    encodeNNN op (nnnField w) = w := by
  apply BitVec.eq_of_toNat_eq
  rw [opField_toNat] at hop
  rw [encodeNNN_toNat, nnnField_toNat]; omega

theorem encodeXKK_of_fields {w : Word} {op : Nibble} (hop : (opField w).toNat = op.toNat) :
    encodeXKK op (xField w) (kkField w) = w := by
  apply BitVec.eq_of_toNat_eq
  rw [opField_toNat] at hop
  rw [encodeXKK_toNat, xField_toNat, kkField_toNat]; omega

theorem encodeXYN_of_fields {w : Word} {op : Nibble} (hop : (opField w).toNat = op.toNat) :
    encodeXYN op (xField w) (yField w) (nField w) = w := by
  apply BitVec.eq_of_toNat_eq
  rw [opField_toNat] at hop
  rw [encodeXYN_toNat, xField_toNat, yField_toNat, nField_toNat]; omega

/-! ## The families with a function field (R84) -/

/-- The 0x8 family: `n` is the function nibble of the instruction's encoding. -/
theorem encode_of_decode8 {x y : Nibble} {n : Nat} {i : Instr} (h : decode8 x y n = some i) :
    encode i = encodeXYN 0x8 x y (BitVec.ofNat 4 n) := by
  unfold decode8 at h
  split at h <;> cases h <;> rfl

/-- The 0xE family: `kk` is the function byte of the instruction's encoding. -/
theorem encode_of_decodeE {x : Nibble} {kk : Nat} {i : Instr} (h : decodeE x kk = some i) :
    encode i = encodeXKK 0xE x (BitVec.ofNat 8 kk) := by
  unfold decodeE at h
  split at h <;> cases h <;> rfl

/-- The 0xF family: `kk` is the function byte of the instruction's encoding. -/
theorem encode_of_decodeF {x : Nibble} {kk : Nat} {i : Instr} (h : decodeF x kk = some i) :
    encode i = encodeXKK 0xF x (BitVec.ofNat 8 kk) := by
  unfold decodeF at h
  split at h <;> cases h <;> rfl

theorem decode8_eq_none {x y : Nibble} {n : Nat} (hn : n < 16) : decode8 x y n = none ↔ 8 ≤ n ∧ n ≠ 0xE := by
  interval_cases n <;> simp [decode8]

theorem decodeE_eq_none {x : Nibble} {kk : Nat} : decodeE x kk = none ↔ kk ∉ [0x9E, 0xA1] := by
  unfold decodeE
  split
  case h_3 => simp only [imp_false] at *; simp [*]
  all_goals simp

theorem decodeF_eq_none {x : Nibble} {kk : Nat} :
    decodeF x kk = none ↔ kk ∉ [0x07, 0x0A, 0x15, 0x18, 0x1E, 0x29, 0x33, 0x55, 0x65] := by
  unfold decodeF
  split
  case h_10 => simp only [imp_false] at *; simp [*]
  all_goals simp

/-! ## The whole decoder -/

/-- R84: the word an instruction was decoded from is its encoding. The cases are the families, in the order of R84. -/
theorem encode_of_decodeWord {w : Word} {i : Instr} (h : decodeWord w = some i) : encode i = w := by
  unfold decodeWord at h
  split at h
  case h_1 => -- 00E0, 00EE
    split at h
    · rename_i hw; cases h; exact hw.symm
    · split at h
      · rename_i hw; cases h; exact hw.symm
      · cases h
  case h_2 hop | h_3 hop | h_11 hop | h_12 hop => -- 1nnn, 2nnn, Annn, Bnnn
    cases h; exact encodeNNN_of_fields hop
  case h_4 hop | h_5 hop | h_7 hop | h_8 hop | h_13 hop => -- 3xkk, 4xkk, 6xkk, 7xkk, Cxkk
    cases h; exact encodeXKK_of_fields hop
  case h_6 hop | h_10 hop => -- 5xy0, 9xy0
    split at h
    · rename_i hn
      cases h
      rw [encode, ← hn]
      exact encodeXYN_of_fields hop
    · cases h
  case h_14 hop => -- Dxyn
    cases h; exact encodeXYN_of_fields hop
  case h_9 hop => -- 8xy_
    rw [encode_of_decode8 h, BitVec.ofNat_toNat, BitVec.setWidth_eq]
    exact encodeXYN_of_fields hop
  case h_15 hop => -- Ex__
    rw [encode_of_decodeE h, BitVec.ofNat_toNat, BitVec.setWidth_eq]
    exact encodeXKK_of_fields hop
  case h_16 hop => -- Fx__
    rw [encode_of_decodeF h, BitVec.ofNat_toNat, BitVec.setWidth_eq]
    exact encodeXKK_of_fields hop
  case h_17 => cases h

/-- Settles O8: each format's word is put together again from the fields the decoder read. -/
theorem encodeOfDecodeIsTheWord : Obligations.EncodeOfDecodeIsTheWord := fun _ _ => encode_of_decodeWord

/-- Settles O9: the families 0, 5, 8, 9, E and F reject the words named, and the others decode every word. -/
theorem invalidWordsAreThoseOfTheSpec : Obligations.InvalidWordsAreThoseOfTheSpec := by
  intro w
  rw [← opField_toNat, ← nField_toNat, ← kkField_toNat]
  unfold decodeWord
  split
  case h_1 hop => simp [hop, ite_eq_iff] -- 00E0, 00EE
  case h_6 hop | h_10 hop => simp [hop, BitVec.toNat_eq] -- 5xy0, 9xy0
  case h_9 hop => simp [hop, decode8_eq_none (nField w).isLt] -- 8xy_
  case h_15 hop => simp [hop, decodeE_eq_none] -- Ex__
  case h_16 hop => simp [hop, decodeF_eq_none] -- Fx__
  case h_17 => -- no family: a nibble is at most 0xF
    simp only [imp_false] at *
    have := (opField w).isLt
    omega
  all_goals -- the ten families without an invalid word
    rename_i hop
    simp [hop]

/-! ## The opcode table (R85) -/

/-- The fields a match under each mask of the table fixes. -/
theorem fields_of_and_F000 {w p : Word} (h : w &&& 0xF000#16 = p) : (opField w).toNat = p.toNat / 0x1000 := by
  rw [← h, and_F000_toNat, opField_toNat]; omega

theorem fields_of_and_F00F {w p : Word} (h : w &&& 0xF00F#16 = p) :
    (opField w).toNat = p.toNat / 0x1000 ∧ (nField w).toNat = p.toNat % 0x1000 := by
  rw [← h, and_F00F_toNat, opField_toNat, nField_toNat]; omega

theorem fields_of_and_F0FF {w p : Word} (h : w &&& 0xF0FF#16 = p) :
    (opField w).toNat = p.toNat / 0x1000 ∧ (kkField w).toNat = p.toNat % 0x1000 := by
  rw [← h, and_F0FF_toNat, opField_toNat, kkField_toNat]; omega

/-- R85: a word that meets a row decodes to an instruction of that row. -/
theorem decodeWord_of_row {w : Word} {i : Instr} (h : w &&& i.row.mask = i.row.pattern) :
    ∃ j, decodeWord w = some j ∧ j.row = i.row := by
  cases i with
  | cls =>
    obtain rfl : w = 0x00E0 := (and_FFFF_eq w).symm.trans h
    exact ⟨.cls, rfl, rfl⟩
  | ret =>
    obtain rfl : w = 0x00EE := (and_FFFF_eq w).symm.trans h
    exact ⟨.ret, rfl, rfl⟩
  | jp | call | seImm | sneImm | ldImm | addImm | ldI | jpV0 | rnd | drw =>
    have hop := fields_of_and_F000 h
    simp [decodeWord, hop, Instr.row]
  | seReg | sneReg =>
    obtain ⟨hop, hn⟩ := fields_of_and_F00F h
    simp [decodeWord, hop, hn, BitVec.toNat_eq, Instr.row]
  | ldReg | or | and | xor | addReg | sub | shr | subn | shl =>
    obtain ⟨hop, hn⟩ := fields_of_and_F00F h
    simp [decodeWord, hop, hn, decode8, Instr.row]
  | skp | sknp =>
    obtain ⟨hop, hkk⟩ := fields_of_and_F0FF h
    simp [decodeWord, hop, hkk, decodeE, Instr.row]
  | ldVxDt | ldVxK | ldDtVx | ldStVx | addIVx | ldFVx | ldBVx | ldMemVx | ldVxMem =>
    obtain ⟨hop, hkk⟩ := fields_of_and_F0FF h
    simp [decodeWord, hop, hkk, decodeF, Instr.row]

open Laws.TableRow in
/-- R82, R85: every instruction's word meets its own row. -/
theorem encode_meets_row : ∀ i : Instr, Laws.TableRow.Statement i
  | .cls => cls | .ret => ret | .jp _ => jp _ | .call _ => call _ | .seImm _ _ => seImm _ _
  | .sneImm _ _ => sneImm _ _ | .seReg _ _ => seReg _ _ | .ldImm _ _ => ldImm _ _ | .addImm _ _ => addImm _ _
  | .ldReg _ _ => ldReg _ _ | .or _ _ => or _ _ | .and _ _ => and _ _ | .xor _ _ => xor _ _
  | .addReg _ _ => addReg _ _ | .sub _ _ => sub _ _ | .shr _ _ => shr _ _ | .subn _ _ => subn _ _
  | .shl _ _ => shl _ _ | .sneReg _ _ => sneReg _ _ | .ldI _ => ldI _ | .jpV0 _ => jpV0 _ | .rnd _ _ => rnd _ _
  | .drw _ _ _ => drw _ _ _ | .skp _ => skp _ | .sknp _ => sknp _ | .ldVxDt _ => ldVxDt _ | .ldVxK _ => ldVxK _
  | .ldDtVx _ => ldDtVx _ | .ldStVx _ => ldStVx _ | .addIVx _ => addIVx _ | .ldFVx _ => ldFVx _
  | .ldBVx _ => ldBVx _ | .ldMemVx _ => ldMemVx _ | .ldVxMem _ => ldVxMem _

theorem decodeWord_meets_row {w : Word} {i : Instr} (h : decodeWord w = some i) :
    w &&& i.row.mask = i.row.pattern := by
  obtain rfl := encode_of_decodeWord h
  exact encode_meets_row i

theorem row_mem_opcodeRows (i : Instr) : i.row ∈ opcodeRows := by
  cases i <;> simp [opcodeRows, Instr.row]

/-- R85: the table's rows are those of the instructions. -/
theorem mem_opcodeRows {r : OpcodeRow} : r ∈ opcodeRows ↔ ∃ i : Instr, i.row = r := by
  constructor
  · intro h
    rw [opcodeRows, ← List.map_append, List.mem_map] at h
    obtain ⟨i, -, hi⟩ := h
    exact ⟨i, hi⟩
  · rintro ⟨i, rfl⟩; exact row_mem_opcodeRows i

theorem wordWellFormed_iff {w : Word} : wordWellFormed w = true ↔ ∃ i : Instr, w &&& i.row.mask = i.row.pattern := by
  simp [wordWellFormed, mem_opcodeRows]

/-- Settles O10: a decoded word is its instruction's encoding, which meets the instruction's row; a word that meets a row
decodes to an instruction of that row; and it decodes to one instruction only. -/
theorem decodeAgreesWithTheOpcodeTable : Obligations.DecodeAgreesWithTheOpcodeTable := by
  refine ⟨fun w i => decodeWord_meets_row, fun w => ?_, fun w r q hr hq hwr hwq => ?_⟩
  · rw [Bool.eq_iff_iff, wordWellFormed_iff, Option.isSome_iff_exists]
    constructor
    · rintro ⟨i, hi⟩; exact ⟨i, decodeWord_meets_row hi⟩
    · rintro ⟨i, hi⟩
      obtain ⟨j, hj, -⟩ := decodeWord_of_row hi
      exact ⟨j, hj⟩
  · obtain ⟨i, rfl⟩ := mem_opcodeRows.1 hr
    obtain ⟨k, rfl⟩ := mem_opcodeRows.1 hq
    obtain ⟨j, hj, hji⟩ := decodeWord_of_row hwr
    obtain ⟨l, hl, hlk⟩ := decodeWord_of_row hwq
    obtain rfl : j = l := Option.some.inj (hj.symm.trans hl)
    exact hji.symm.trans hlk

/-- Settles O11: ten closed computations of the decoder. -/
theorem wordsOfTheSpecDecode : Obligations.WordsOfTheSpecDecode := by
  unfold Obligations.WordsOfTheSpecDecode
  decide

end Sys2Proof
end

