-- ==== Sys2Proof/Proofs/Cycle.lean ====
section
/-!
The step case by case (spec/30_encoding.md R91), and that every operation answers a next state (spec/60_exceptions.md R220,
R222: an error is a state in mode Halted).
-/

namespace Sys2Proof.Machine

/-! ## The step, one equation per case -/

section
variable {s : State}

theorem step_of_halted {f : FaultRecord} (hm : s.mode = .halted f) : step s = .next s := by
  simp only [step, State.startStep, hm]

theorem step_of_waiting {x : Nibble} (hm : s.mode = .waitingForKey x) : step s = .next (s.waitStep x) := by
  simp only [step, State.startStep, hm]

theorem step_of_fetchFault {a : Nat} (hm : s.mode = .running) (ha : lowestFault readFaults s.pc.toNat 2 = some a) :
    step s = .next (s.raiseFetch a) := by
  simp only [step, State.startStep, hm, State.fetchDecode, ha]

theorem step_of_invalid (hm : s.mode = .running) (hpc : s.pc.toNat + 2 ≤ memSize)
    (hw : decodeWord s.fetchWord = none) : step s = .next ((s.setPc (s.pc + 2)).invalidWord s.fetchWord) := by
  have hf : lowestFault readFaults s.pc.toNat 2 = none := lowestFault_read_none.2 (.inr hpc)
  simp only [step, State.startStep, hm, State.fetchDecode, hf, hw]

end

/-- R56, R57: above 0xFFE a fetch faults on the first of pc and pc + 1 above 0xFFF. -/
theorem lowestFault_fetch {pc : Nat} (h : 0xFFE < pc) :
    lowestFault readFaults pc 2 = some (if pc = 0xFFF then 0x1000 else pc) := by
  cases hf : lowestFault readFaults pc 2 with
  | none =>
    have := lowestFault_read_none.1 hf
    omega
  | some a =>
    obtain ⟨rfl, -⟩ := lowestFault_read_some hf
    congr 1
    split <;> omega

theorem State.result_of_halted {s : State} {f : FaultRecord} (hm : s.mode = .halted f) : s.result = .error f := by
  rw [State.result, hm]

/-- R92: once the fetch has advanced pc, the executing instruction's address is the pc before. -/
theorem State.insnAddr_advanced (s : State) : (s.setPc (s.pc + 2)).insnAddr = s.pc := BitVec.add_sub_cancel _ _

/-- R91: what an invalid word does once pc is advanced, by the policy. -/
theorem State.invalidWord_advanced (s : State) (w : Word) :
    (s.setPc (s.pc + 2)).invalidWord w = match s.config.invalidOpcodePolicy with
      | .halt => State.afterError { s with pc := s.pc + 2 } .invalidOpcode s.pc (some w) .none
      | .skip => { s with pc := s.pc + 2 } := by
  rw [State.invalidWord, State.insnAddr_advanced]
  rfl

/-- Settles O2: one equation of the step per clause. -/
theorem stepFollowsTheCycle : Obligations.StepFollowsTheCycle := by
  rintro s w rfl
  refine ⟨fun f hm => ⟨step_of_halted hm, State.result_of_halted hm⟩, fun x hm => step_of_waiting hm,
    fun hm hpc => step_of_fetchFault hm (lowestFault_fetch hpc), fun hm hpc hw => ?_,
    fun i hm hpc hw => step_of_decode hm (Nat.add_le_add_right hpc 2) hw⟩
  exact (step_of_invalid hm (Nat.add_le_add_right hpc 2) hw).trans (congrArg _ (s.invalidWord_advanced _))

/-- Settles O1: the last clause of the cycle. -/
theorem stepRunsTheDecodedInstruction : Obligations.StepRunsTheDecodedInstruction :=
  fun _ _ hm hpc hw => step_of_decode hm (Nat.add_le_add_right hpc 2) hw

/-! ## Every operation answers a next state -/

/-- No arm of `exec` faults or refuses: where an instruction makes a check, both outcomes are next states. -/
theorem exec_answers (i : Instr) (s : State) : ∃ t, exec i s = .next t := by
  cases i with
  | ret | call | drw | skp | sknp | ldFVx | ldBVx | ldMemVx | ldVxMem =>
    simp only [exec, execRet, execCall, execDrw, execSkp, execSknp, execLdFVx, execLdBVx, execLdMemVx, execLdVxMem]
    split <;> exact ⟨_, rfl⟩
  | _ => exact ⟨_, rfl⟩

theorem step_answers (s : State) : ∃ t, step s = .next t := by
  unfold step
  rcases s.startStep with ⟨i, t⟩ | t
  · exact exec_answers i t
  · exact ⟨t, rfl⟩

theorem advanceLoop_answers (fuel : Nat) (s : State) : ∃ t, advanceLoop fuel s = .next t := by
  induction fuel generalizing s with
  | zero => exact ⟨s, rfl⟩
  | succ fuel ih =>
    unfold advanceLoop
    split
    · exact ⟨s, rfl⟩
    · split
      · exact ih s.runTick
      · obtain ⟨t, ht⟩ := step_answers s.countStep
        simp only [ht]
        split
        · exact ⟨t, rfl⟩
        · exact ih t

theorem advance_answers (ns : Nat) (s : State) : ∃ t, advance ns s = .next t := by
  unfold advance
  split
  · exact ⟨s, rfl⟩
  · exact advanceLoop_answers _ _

theorem perform_answers (op : HostOp) (s : State) : ∃ t, perform op s = .next t := by
  cases op with
  | advance ns => exact advance_answers ns s
  | step => exact step_answers s
  | tickTimers | setPressed | clearKeys => exact ⟨_, rfl⟩

theorem performAll_answers (ops : List HostOp) (s : State) : ∃ t, performAll ops s = .next t := by
  induction ops generalizing s with
  | nil => exact ⟨s, rfl⟩
  | cons op rest ih =>
    obtain ⟨t, ht⟩ := perform_answers op s
    simp only [performAll, ht]
    exact ih t

/-- Settles O5: no instruction refuses, so no step, no turn of the scheduler's loop and no host operation does. -/
theorem everyOperationAnswersANextState : Obligations.EveryOperationAnswersANextState :=
  ⟨exec_answers, step_answers, performAll_answers⟩

end Sys2Proof.Machine
end

