-- ==== Sys2Proof/Proofs/Flow.lean ====
section
/-!
Control transfer (spec/41_flow.md R110 to R117): what RET and CALL answer as the stack's pop and push do, and that a
jump and a skip set pc alone. Each word is its instruction's encoding, which the decoder reads back.
-/

namespace Sys2Proof

/-- R86: in the families 0x5 and 0x9 the low nibble must be 0. -/
theorem decodeWord_encodeXYN_eq_none {op : Nibble} (hop : op.toNat = 0x5 ∨ op.toNat = 0x9) (x y : Nibble) {n : Nibble}
    (hn : n ≠ 0#4) : decodeWord (encodeXYN op x y n) = none := by
  obtain ⟨hopField, -, -, hnField⟩ := encodeXYN_fields op x y n
  rcases hop with hop | hop <;> simp [decodeWord, hopField, hnField, hop, hn]

end Sys2Proof

namespace Sys2Proof.Machine

/-! ## RET and CALL, one equation per answer of the stack -/

section
variable {s t : State} {w : Word}

theorem exec_ret_underflow (h : s.sp.val = 0) :
    exec .ret s = .next (s.raiseIn .ret .stackUnderflow .none) := by
  simp only [exec, execRet, State.pop_eq_none.2 h]

theorem exec_ret_of_pop (h : s.pop = some (w, t)) : exec .ret s = .next (t.setPc w) := by
  simp only [exec, execRet, h]

theorem exec_call_overflow (nnn : Addr12) (h : s.sp.val = 16) :
    exec (.call nnn) s = .next (s.raiseIn (.call nnn) .stackOverflow .none) := by
  simp only [exec, execCall, State.push_eq_none.2 h]

theorem exec_call_of_push (nnn : Addr12) (h : s.push s.pc = some t) :
    exec (.call nnn) s = .next (t.setPc (zextAddr nnn)) := by
  simp only [exec, execCall, h]

theorem State.exists_pop (h : 0 < s.sp.val) : ∃ w t, s.pop = some (w, t) := by
  cases hp : s.pop with
  | none => have := State.pop_eq_none.1 hp; omega
  | some p => exact ⟨p.1, p.2, rfl⟩

theorem State.exists_push (h : s.sp.val < 16) (w : Word) : ∃ t, s.push w = some t := by
  cases hp : s.push w with
  | none => have := State.push_eq_none.1 hp; omega
  | some t => exact ⟨t, rfl⟩

end

/-- Settles O12: the pop's answer says what the entry and SP are, and that nothing else changed. -/
theorem retPopsThePc : Obligations.RetPopsThePc := by
  refine ⟨decodeWord_encode .ret, fun s => ⟨fun hsp => ?_, exec_ret_underflow⟩⟩
  obtain ⟨w, u, hpop⟩ := State.exists_pop hsp
  obtain ⟨hspu, hentry, hu⟩ := State.pop_eq_some hpop
  refine ⟨u.setPc w, exec_ret_of_pop hpop, hspu.symm, hentry, ?_, ?_⟩
  · rw [hu]; rfl
  · rw [hu]; exact fun _ => rfl

/-- Settles O14: the push's answer says what the entries and SP are, and that nothing else changed. -/
theorem callPushesThePc : Obligations.CallPushesThePc := by
  refine fun nnn => ⟨decodeWord_encode (.call nnn), fun s => ⟨fun hsp => ?_, exec_call_overflow nnn⟩⟩
  obtain ⟨u, hpush⟩ := State.exists_push hsp s.pc
  obtain ⟨_, hspu, hstack, hu⟩ := State.push_eq_some hpush
  refine ⟨u.setPc (zextAddr nnn), exec_call_of_push nnn hpush, hspu, zextAddr_toNat nnn, ?_, fun k hk => ?_, ?_, ?_⟩
  · rw [State.setPc_stack, hstack, Vector.getElem?_set_self]
  · rw [State.setPc_stack, hstack, Vector.getElem?_set_ne hsp hk.symm]
  · rw [hu]; rfl
  · rw [hu]; exact fun _ => rfl

/-! ## Jumps and skips -/

theorem State.sameBytes_setPc (s : State) (w : Word) : s.sameBytes (s.setPc w) := fun a => s.byteAt_setPc a w

/-- R118: an instruction that is a skip adds 2 to pc exactly when its condition holds, and changes nothing else. -/
theorem exec_skip {i : Instr} {s : State} {c : Bool} {p : Prop} [Decidable p] (h : exec i s = .next (s.skipIf c))
    (hc : c = true ↔ p) :
    ∃ t, exec i s = .next t ∧ t.pc = (if p then s.pc + 2 else s.pc) ∧ t = { s with pc := t.pc } ∧ s.sameBytes t := by
  rw [State.skipIf_eq] at h
  exact ⟨_, h, if_congr hc rfl rfl, rfl, s.sameBytes_setPc _⟩

/-- Settles O13: the target is the zero-extended address. -/
theorem jpSetsThePc : Obligations.JpSetsThePc := fun nnn =>
  ⟨decodeWord_encode (.jp nnn), fun s => ⟨_, rfl, zextAddr_toNat nnn, rfl, s.sameBytes_setPc _⟩⟩

/-- R117: the sum of a 12-bit address and a byte does not wrap at 16 bits. -/
theorem zextAddr_add_zextByte_toNat (nnn : Addr12) (b : Byte) :
    (zextAddr nnn + zextByte b).toNat = nnn.toNat + b.toNat := by
  rw [BitVec.toNat_add, zextAddr_toNat, zextByte_toNat]; omega

/-- Settles O17: the 16-bit sum is the natural sum. -/
theorem jpV0AddsV0 : Obligations.JpV0AddsV0 := fun nnn =>
  ⟨decodeWord_encode (.jpV0 nnn), fun s => ⟨_, rfl, zextAddr_add_zextByte_toNat nnn _, rfl, s.sameBytes_setPc _⟩⟩

/-- Settles O15: both are skips, on equality and on its negation. -/
theorem skipsOnAByteCompare : Obligations.SkipsOnAByteCompare := fun x kk =>
  ⟨decodeWord_encode (.seImm x kk), decodeWord_encode (.sneImm x kk), fun _ =>
    ⟨exec_skip rfl beq_iff_eq, exec_skip rfl bne_iff_ne⟩⟩

/-- Settles O16: both are skips, on equality and on its negation, and the other low nibbles are invalid. -/
theorem skipsOnARegisterCompare : Obligations.SkipsOnARegisterCompare := fun x y =>
  ⟨decodeWord_encode (.seReg x y), decodeWord_encode (.sneReg x y),
    fun _ hn =>
      ⟨decodeWord_encodeXYN_eq_none (op := 0x5) (.inl rfl) x y hn,
        decodeWord_encodeXYN_eq_none (op := 0x9) (.inr rfl) x y hn⟩,
    fun _ => ⟨exec_skip rfl beq_iff_eq, exec_skip rfl bne_iff_ne⟩⟩

end Sys2Proof.Machine
end

