-- ==== Sys2Proof/Proofs/Alu.lean ====
section
/-!
Arithmetic and logic (spec/42_alu.md R131 to R141). An instruction here writes one register, or a result and then VF; which
part of the state that leaves alone is said once for each of the two writes, so that a statement's own content is the value
written and the flag's. Each word is its instruction's encoding, which the decoder reads back.
-/

namespace Sys2Proof

/-- R82: a row's match with the register fields added is the word of format XYN. -/
theorem ofNat_match_add_xy (op x y f : Nibble) :
    BitVec.ofNat 16 (0x1000 * op.toNat + f.toNat + 0x100 * x.toNat + 0x10 * y.toNat) = encodeXYN op x y f :=
  congrArg (BitVec.ofNat 16) (by omega)

/-- R84: the word written from the match 0x800`f` of a row of family 0x8 decodes to that row's instruction. -/
theorem decodeWord_family8 {x y : Nibble} (f : Nibble) {i : Instr} (h : encode i = encodeXYN 0x8 x y f) :
    decodeWord (BitVec.ofNat 16 (0x8000 + f.toNat + 0x100 * x.toNat + 0x10 * y.toNat)) = some i := by
  rw [← decodeWord_encode i, h, ← ofNat_match_add_xy]
  rfl

end Sys2Proof

namespace Sys2Proof.Machine

/-! ## The two writes, and what they leave alone -/

section
variable (s : State) (x : Nibble) (b : Byte) (c : Bool)

/-- A write of `V[x]` leaves the other registers, every other piece of state and every byte of memory. -/
theorem State.setV_frame :
    s.sameVExcept (s.setV x b) x ∧ s.setV x b = { s with v := (s.setV x b).v } ∧ s.sameBytes (s.setV x b) :=
  ⟨fun _ hr => s.getV_setV_ne hr.symm b, rfl, fun _ => rfl⟩

/-- A write of `V[x]` and VF leaves the other registers, every other piece of state and every byte of memory. -/
theorem State.writeWithFlag_frame :
    s.sameVExceptWithFlag (s.writeWithFlag x b c) x ∧
      s.writeWithFlag x b c = { s with v := (s.writeWithFlag x b c).v } ∧ s.sameBytes (s.writeWithFlag x b c) := by
  refine ⟨fun r hrx hrf => ?_, rfl, fun _ => rfl⟩
  rw [State.getV_writeWithFlag, if_neg hrf, if_neg hrx.symm]

end

/-! ## The values (R130 law 1) and the flags (R34) -/

/-- Byte subtraction as the rules write it, on naturals. -/
theorem byte_sub_toNat (a b : Byte) : (a - b).toNat = (a.toNat + 256 - b.toNat) % 256 := by
  rw [BitVec.toNat_sub]; omega

theorem flagByte_toNat (c : Bool) : (flagByte c).toNat = c.toNat := by cases c <;> rfl

theorem flagByte_carry (a b : Byte) : flagByte (carry a b) = if 255 < a.toNat + b.toNat then 1 else 0 := by
  simp only [flagByte, carry, decide_eq_true_eq]

theorem flagByte_noBorrow (a b : Byte) : flagByte (noBorrow a b) = if b.toNat ≤ a.toNat then 1 else 0 := by
  simp only [flagByte, noBorrow, decide_eq_true_eq]

theorem flagByte_lowBit_toNat (a : Byte) : (flagByte (lowBit a)).toNat = a.toNat % 2 := by
  rw [flagByte_toNat, lowBit, BitVec.getLsbD, Nat.toNat_testBit, Nat.pow_zero, Nat.div_one]

theorem flagByte_highBit_toNat (a : Byte) : (flagByte (highBit a)).toNat = a.toNat / 128 := by
  rw [flagByte_toNat, highBit, BitVec.getLsbD, Nat.toNat_testBit]; omega

theorem byte_shr_one_toNat (a : Byte) : (a >>> 1).toNat = a.toNat / 2 := by
  rw [BitVec.toNat_ushiftRight, Nat.shiftRight_one]

theorem byte_shl_one_toNat (a : Byte) : (a <<< 1).toNat = a.toNat * 2 % 256 := by
  rw [BitVec.toNat_shiftLeft, Nat.shiftLeft_eq, Nat.pow_one]

/-- R139, R141: SHIFT_SOURCE selects V[y] or V[x]. -/
theorem State.shiftOperand_eq (s : State) (x y : Nibble) :
    s.shiftOperand x y = if s.config.shiftSource = .vy then s.getV y else s.getV x := by
  unfold State.shiftOperand
  cases s.config.shiftSource <;> rfl

/-! ## One register written -/

/-- Settles O18: each is one write of `V[x]`, ADD's of the sum modulo 256. -/
theorem loadAndAddImmediateWriteOneRegister : Obligations.LoadAndAddImmediateWriteOneRegister := by
  refine fun x y kk => ⟨decodeWord_encode (.ldImm x kk), decodeWord_encode (.addImm x kk),
    decodeWord_encode (.ldReg x y), fun s => ⟨?_, ?_, ?_⟩⟩
  · exact ⟨_, rfl, s.getV_setV_same x _, s.setV_frame x _⟩
  · refine ⟨_, rfl, ?_, s.setV_frame x _⟩
    rw [State.getV_setV_same, BitVec.toNat_add]
  · exact ⟨_, rfl, s.getV_setV_same x _, s.setV_frame x _⟩

/-- Settles O19: each is one write of `V[x]`, of a value given bit by bit. -/
theorem logicWritesOneRegister : Obligations.LogicWritesOneRegister := by
  refine fun x y => ⟨decodeWord_family8 1 rfl, decodeWord_family8 2 rfl, decodeWord_family8 3 rfl,
    fun s => ⟨⟨_, rfl, fun k => ?_, s.setV_frame x _⟩, ⟨_, rfl, fun k => ?_, s.setV_frame x _⟩,
      ⟨_, rfl, fun k => ?_, s.setV_frame x _⟩⟩⟩
  · rw [State.getV_setV_same, BitVec.getLsbD_or]
  · rw [State.getV_setV_same, BitVec.getLsbD_and]
  · rw [State.getV_setV_same, BitVec.getLsbD_xor]

/-! ## A result and a flag written -/

/-- R130 law 3: what an instruction that ends in a write of a result `b` and a flag `c` answers, with `n` the result on
naturals and `f` the flag's byte. -/
theorem exec_flagged {i : Instr} {s : State} {x : Nibble} {b f : Byte} {c : Bool} {n : Nat}
    (h : exec i s = .next (s.writeWithFlag x b c)) (hb : b.toNat = n) (hc : flagByte c = f) :
    ∃ t, exec i s = .next t ∧ (x ≠ 0xF → (t.getV x).toNat = n) ∧ t.getV 0xF = f ∧
      s.sameVExceptWithFlag t x ∧ t = { s with v := t.v } ∧ s.sameBytes t := by
  refine ⟨_, h, fun hx => ?_, ?_, s.writeWithFlag_frame x b c⟩
  · rw [State.getV_writeWithFlag, if_neg hx, if_pos rfl, hb]
  · rw [State.getV_writeWithFlag, if_pos rfl, hc]

/-- Settles O20: the byte sum is the sum modulo 256, and the flag is the carry. -/
theorem addWritesSumThenCarry : Obligations.AddWritesSumThenCarry := fun _ _ =>
  ⟨decodeWord_family8 0x4 rfl, fun _ => exec_flagged rfl (BitVec.toNat_add _ _) (flagByte_carry _ _)⟩

/-- Settles O21: the result is the byte difference `V[x] - V[y]`, and the flag is its no-borrow. -/
theorem subWritesDifferenceThenNoBorrow : Obligations.SubWritesDifferenceThenNoBorrow := fun _ _ =>
  ⟨decodeWord_family8 0x5 rfl, fun _ => exec_flagged rfl (byte_sub_toNat _ _) (flagByte_noBorrow _ _)⟩

/-- Settles O23: the result is the byte difference `V[y] - V[x]`, and the flag is its no-borrow. -/
theorem subnWritesDifferenceThenNoBorrow : Obligations.SubnWritesDifferenceThenNoBorrow := fun _ _ =>
  ⟨decodeWord_family8 0x7 rfl, fun _ => exec_flagged rfl (byte_sub_toNat _ _) (flagByte_noBorrow _ _)⟩

/-- Settles O22: a right shift by one halves the source and moves out its bit 0. -/
theorem shrHalvesTheShiftSource : Obligations.ShrHalvesTheShiftSource := by
  refine fun x y => ⟨decodeWord_family8 0x6 rfl, fun s src hsrc => ?_⟩
  rw [← State.shiftOperand_eq] at hsrc
  subst hsrc
  obtain ⟨t, ht, hresult, hflag, hframe⟩ :=
    exec_flagged (i := .shr x y) (s := s) rfl (byte_shr_one_toNat _) rfl
  exact ⟨t, ht, hresult, hflag ▸ flagByte_lowBit_toNat _, hframe⟩

/-- Settles O24: a left shift by one doubles the source modulo 256 and moves out its bit 7. -/
theorem shlDoublesTheShiftSource : Obligations.ShlDoublesTheShiftSource := by
  refine fun x y => ⟨decodeWord_family8 0xE rfl, fun s src hsrc => ?_⟩
  rw [← State.shiftOperand_eq] at hsrc
  subst hsrc
  obtain ⟨t, ht, hresult, hflag, hframe⟩ :=
    exec_flagged (i := .shl x y) (s := s) rfl (byte_shl_one_toNat _) rfl
  exact ⟨t, ht, hresult, hflag ▸ flagByte_highBit_toNat _, hframe⟩

end Sys2Proof.Machine
end

