-- ==== Sys2Proof/Proofs/Display.lean ====
section
/-!
The display instructions (spec/43_display.md R160 to R166). A draw is read as a list of pixels flipped one after another: the
addresses of the sprite's 1 bits. No pixel stands in the list twice (R162), so the draw flips each pixel of the list once,
and its collision flag says whether one of them was on before.
-/

namespace Sys2Proof

/-- R82: an XFF row's match with the register field added is the word of format XKK. -/
theorem ofNat_match_add_x (op x : Nibble) (ff : Byte) :
    BitVec.ofNat 16 (0x1000 * op.toNat + ff.toNat + 0x100 * x.toNat) = encodeXKK op x ff :=
  congrArg (BitVec.ofNat 16) (by omega)

end Sys2Proof

namespace Sys2Proof.Machine

/-! ## Pixels, and a pixel flipped -/

/-- R160: a pixel of the framebuffer, its column and its row. -/
abbrev Pixel := Fin 64 × Fin 32

/-- R160: the pixel a coordinate addresses; both axes wrap. -/
def Pixel.ofCoords (x y : Nat) : Pixel := (Fin.ofNat 64 x, Fin.ofNat 32 y)

theorem Pixel.ofCoords_eq_iff {x y : Nat} {p : Pixel} :
    Pixel.ofCoords x y = p ↔ x % 64 = p.1.val ∧ y % 32 = p.2.val := by
  simp only [Pixel.ofCoords, Prod.ext_iff, Fin.ext_iff, Fin.val_ofNat]

/-- The pixel's value: on or off. -/
def Framebuffer.on (f : Framebuffer) (p : Pixel) : Bool := f[p.2][p.1]

/-- R162: a 1 bit of a sprite over a pixel. -/
def Framebuffer.flip (acc : Framebuffer × Bool) (p : Pixel) : Framebuffer × Bool :=
  Framebuffer.xorPixel acc p.1.val p.2.val true

theorem Framebuffer.pixel_of_pixel (f : Framebuffer) (p : Pixel) : f.pixel p.1.val p.2.val = f.on p := by
  simp only [Framebuffer.pixel, Framebuffer.on, Nat.mod_eq_of_lt p.1.isLt, Nat.mod_eq_of_lt p.2.isLt]
  rfl

theorem Framebuffer.flip_on (acc : Framebuffer × Bool) (p q : Pixel) :
    (Framebuffer.flip acc p).1.on q = (acc.1.on q ^^ decide (q = p)) := by
  have hsame : (p.1.val % 64 = q.1.val % 64 ∧ p.2.val % 32 = q.2.val % 32) ↔ q = p := by
    rw [Prod.ext_iff, Fin.ext_iff, Fin.ext_iff]; omega
  rw [← Framebuffer.pixel_of_pixel, Framebuffer.flip, Framebuffer.xorPixel, if_pos rfl, Framebuffer.pixel_setPixel,
    Framebuffer.pixel_of_pixel, Framebuffer.pixel_of_pixel]
  by_cases h : q = p
  · rw [if_pos (hsame.2 h), h, decide_eq_true rfl, Bool.xor_true]
  · rw [if_neg (mt hsame.1 h), decide_eq_false h, Bool.xor_false]

theorem Framebuffer.flip_flag (acc : Framebuffer × Bool) (p : Pixel) :
    (Framebuffer.flip acc p).2 = (acc.2 || acc.1.on p) := by
  rw [← Framebuffer.pixel_of_pixel]; rfl

/-- R162: a sprite bit flips the pixel it is over, or does nothing. -/
theorem Framebuffer.xorPixel_eq (acc : Framebuffer × Bool) (x y : Nat) (b : Bool) :
    Framebuffer.xorPixel acc x y b = if b then Framebuffer.flip acc (Pixel.ofCoords x y) else acc := by
  simp [Framebuffer.flip, Framebuffer.xorPixel, Framebuffer.pixel, Framebuffer.setPixel, Pixel.ofCoords]

/-! ## Distinct pixels flipped one after another -/

section
variable {l : List Pixel}

/-- Each pixel of the list is flipped once, every other pixel stays. -/
theorem Framebuffer.foldl_flip_on (hl : l.Nodup) (acc : Framebuffer × Bool) (q : Pixel) :
    (l.foldl Framebuffer.flip acc).1.on q = (acc.1.on q ^^ decide (q ∈ l)) := by
  induction l generalizing acc with
  | nil => simp
  | cons p rest ih =>
    obtain ⟨hp, hrest⟩ := List.nodup_cons.1 hl
    rw [List.foldl_cons, ih hrest, Framebuffer.flip_on, Bool.xor_assoc]
    by_cases h : q = p
    · simp [h, hp]
    · simp [h]

/-- The flag becomes whether a pixel of the list was on before the first flip. -/
theorem Framebuffer.foldl_flip_flag (hl : l.Nodup) (acc : Framebuffer × Bool) :
    (l.foldl Framebuffer.flip acc).2 = (acc.2 || l.any acc.1.on) := by
  induction l generalizing acc with
  | nil => simp
  | cons p rest ih =>
    obtain ⟨hp, hrest⟩ := List.nodup_cons.1 hl
    have hkeep : rest.any (Framebuffer.flip acc p).1.on = rest.any acc.1.on := by
      rw [Bool.eq_iff_iff, List.any_eq_true, List.any_eq_true]
      refine exists_congr fun q => and_congr_right fun hq => ?_
      rw [Framebuffer.flip_on, decide_eq_false (ne_of_mem_of_not_mem hq hp), Bool.xor_false]
    rw [List.foldl_cons, ih hrest, Framebuffer.flip_flag, hkeep, List.any_cons, Bool.or_assoc]

end

/-! ## A sprite as the list of its pixels (R162, R163) -/

/-- R163: the pixels under the 1 bits of one sprite byte, bit 7 at column offset 0. -/
def rowPixels (x y : Nat) (b : Byte) : List Pixel :=
  ((List.range 8).filter fun c => b.getLsbD (7 - c)).map fun c => Pixel.ofCoords (x + c) y

/-- R162: the pixels under the 1 bits of a sprite, row by row. -/
def spritePixels (x y : Nat) : List Byte → List Pixel
  | [] => []
  | b :: rest => rowPixels x y b ++ spritePixels x (y + 1) rest

theorem Framebuffer.xorRow_eq (acc : Framebuffer × Bool) (x y : Nat) (b : Byte) :
    Framebuffer.xorRow acc x y b = (rowPixels x y b).foldl Framebuffer.flip acc := by
  simp only [Framebuffer.xorRow, rowPixels, List.foldl_map, List.foldl_filter, Framebuffer.xorPixel_eq]

theorem Framebuffer.xorRows_eq (acc : Framebuffer × Bool) (x y : Nat) (bs : List Byte) :
    Framebuffer.xorRows acc x y bs = (spritePixels x y bs).foldl Framebuffer.flip acc := by
  induction bs generalizing acc y with
  | nil => rfl
  | cons b rest ih => rw [Framebuffer.xorRows, ih, Framebuffer.xorRow_eq, spritePixels, List.foldl_append]

theorem mem_rowPixels {x y : Nat} {b : Byte} {p : Pixel} :
    p ∈ rowPixels x y b ↔ ∃ k < 8, Pixel.ofCoords (x + k) y = p ∧ b.getLsbD (7 - k) = true := by
  simp only [rowPixels, List.mem_map, List.mem_filter, List.mem_range, and_assoc, and_comm (a := Pixel.ofCoords _ _ = p)]

theorem mem_spritePixels {x y : Nat} {bs : List Byte} {p : Pixel} :
    p ∈ spritePixels x y bs ↔
      ∃ j b, bs[j]? = some b ∧ ∃ k < 8, Pixel.ofCoords (x + k) (y + j) = p ∧ b.getLsbD (7 - k) = true := by
  induction bs generalizing y with
  | nil => simp [spritePixels]
  | cons b rest ih =>
    rw [spritePixels, List.mem_append, mem_rowPixels, ih]
    constructor
    · rintro (h | ⟨j, b', hj, h⟩)
      · exact ⟨0, b, rfl, h⟩
      · exact ⟨j + 1, b', hj, by rwa [Nat.add_right_comm] at h⟩
    · rintro ⟨_ | j, b', hj, h⟩
      · cases hj; exact .inl h
      · exact .inr ⟨j, b', hj, by rwa [Nat.add_right_comm]⟩

/-- R162: the 8 columns of a row are distinct modulo 64. -/
theorem nodup_rowPixels (x y : Nat) (b : Byte) : (rowPixels x y b).Nodup := by
  refine (List.nodup_range.filter _).map_on fun c hc d hd h => ?_
  have hc8 := List.mem_range.1 (List.mem_filter.1 hc).1
  have hd8 := List.mem_range.1 (List.mem_filter.1 hd).1
  obtain ⟨hcol, -⟩ := Pixel.ofCoords_eq_iff.1 h
  simp only [Pixel.ofCoords, Fin.val_ofNat] at hcol
  omega

/-- R162: no pixel is touched twice in one draw, since at most 32 rows are distinct modulo 32. -/
theorem nodup_spritePixels (x y : Nat) {bs : List Byte} (h : bs.length ≤ 32) : (spritePixels x y bs).Nodup := by
  induction bs generalizing y with
  | nil => exact List.nodup_nil
  | cons b rest ih =>
    rw [List.length_cons] at h
    refine List.Nodup.append (nodup_rowPixels x y b) (ih (y + 1) (by omega)) fun p hp hrest => ?_
    obtain ⟨_, -, hp, -⟩ := mem_rowPixels.1 hp
    obtain ⟨j, _, hj, _, -, hq, -⟩ := mem_spritePixels.1 hrest
    obtain ⟨hlt, -⟩ := List.getElem?_eq_some_iff.1 hj
    have := (Pixel.ofCoords_eq_iff.1 hp).2
    have := (Pixel.ofCoords_eq_iff.1 hq).2
    omega

/-! ## What a completed draw makes of the framebuffer and VF -/

section
variable {s : State} {x y n : Nibble}

/-- The pixels under the 1 bits of the sprite that DRW draws. -/
def State.spritePixels (s : State) (x y n : Nibble) : List Pixel :=
  Machine.spritePixels (s.getV x).toNat (s.getV y).toNat (s.bytesFrom s.i.toNat n.toNat)

/-- R58: byte `j` of a run of bytes. -/
theorem State.getElem?_bytesFrom {base m j : Nat} {b : Byte} :
    (s.bytesFrom base m)[j]? = some b ↔ j < m ∧ s.byteAt (base + j) = b := by
  simp only [List.getElem?_eq_some_iff, State.length_bytesFrom, State.getElem_bytesFrom, exists_prop]

/-- The sprite's pixels are those it covers. -/
theorem State.mem_spritePixels {c r : Nat} (hr : r < 32) (hc : c < 64) :
    (⟨c, hc⟩, ⟨r, hr⟩) ∈ s.spritePixels x y n ↔ s.spriteCovers x y n c r := by
  simp only [State.spritePixels, Machine.mem_spritePixels, State.spriteCovers, State.getElem?_bytesFrom,
    Pixel.ofCoords_eq_iff]
  constructor
  · rintro ⟨j, _, ⟨hj, rfl⟩, k, hk, ⟨hcol, hrow⟩, hbit⟩
    exact ⟨j, k, hj, hk, hcol, hrow, hbit⟩
  · rintro ⟨j, k, hj, hk, hcol, hrow, hbit⟩
    exact ⟨j, _, ⟨hj, rfl⟩, k, hk, ⟨hcol, hrow⟩, hbit⟩

theorem State.nodup_spritePixels (s : State) (x y n : Nibble) : (s.spritePixels x y n).Nodup :=
  Machine.nodup_spritePixels _ _ (by rw [State.length_bytesFrom]; omega)

/-- R162: a draw flips the sprite's pixels, then writes the collision flag. -/
theorem State.drawAt_eq (s : State) (x y n : Nibble) :
    s.drawAt x y n = (s.setFb ((s.spritePixels x y n).foldl Framebuffer.flip (s.fb, false)).1).setFlag
      ((s.spritePixels x y n).foldl Framebuffer.flip (s.fb, false)).2 := by
  simp only [State.drawAt, Framebuffer.drawSprite, Framebuffer.xorRows_eq]
  rfl

/-- R162: a pixel after the draw differs from the pixel before exactly where the sprite covers it. -/
theorem State.drawAt_pixel {c r : Nat} (hr : r < 32) (hc : c < 64) :
    (s.drawAt x y n).fb[r][c] = (s.fb[r][c] ^^ decide ((⟨c, hc⟩, ⟨r, hr⟩) ∈ s.spritePixels x y n)) := by
  rw [State.drawAt_eq]
  exact Framebuffer.foldl_flip_on (s.nodup_spritePixels x y n) (s.fb, false) (⟨c, hc⟩, ⟨r, hr⟩)

theorem State.drawAt_pixel_covered {c r : Nat} (hr : r < 32) (hc : c < 64) (h : s.spriteCovers x y n c r) :
    (s.drawAt x y n).fb[r][c] = !s.fb[r][c] := by
  rw [State.drawAt_pixel, decide_eq_true ((State.mem_spritePixels hr hc).2 h), Bool.xor_true]

theorem State.drawAt_pixel_uncovered {c r : Nat} (hr : r < 32) (hc : c < 64) (h : ¬ s.spriteCovers x y n c r) :
    (s.drawAt x y n).fb[r][c] = s.fb[r][c] := by
  rw [State.drawAt_pixel, decide_eq_false (mt (State.mem_spritePixels hr hc).1 h), Bool.xor_false]

/-- R162: a covered pixel was on, so the draw turns it off. -/
def State.collides (s : State) (x y n : Nibble) : Prop :=
  ∃ (r c : Nat) (hr : r < 32) (hc : c < 64), s.spriteCovers x y n c r ∧ s.fb[r][c] = true

/-- R162: the collision flag of the draw. -/
theorem State.foldl_flip_flag_iff :
    ((s.spritePixels x y n).foldl Framebuffer.flip (s.fb, false)).2 = true ↔ s.collides x y n := by
  rw [Framebuffer.foldl_flip_flag (s.nodup_spritePixels x y n), Bool.false_or, List.any_eq_true]
  constructor
  · rintro ⟨⟨⟨c, hc⟩, ⟨r, hr⟩⟩, hmem, hon⟩
    exact ⟨r, c, hr, hc, (State.mem_spritePixels hr hc).1 hmem, hon⟩
  · rintro ⟨r, c, hr, hc, hcov, hon⟩
    exact ⟨_, (State.mem_spritePixels hr hc).2 hcov, hon⟩

/-- R162: VF after the draw is 1 when a covered pixel was on. -/
theorem State.drawAt_vf_of_collides (h : s.collides x y n) : (s.drawAt x y n).getV 0xF = 1 := by
  rw [State.drawAt_eq, State.setFlag_eq, State.getV_setV_same, State.foldl_flip_flag_iff.2 h]
  rfl

/-- R162: VF after the draw is 0 when no covered pixel was on. -/
theorem State.drawAt_vf_of_not_collides (h : ¬ s.collides x y n) : (s.drawAt x y n).getV 0xF = 0 := by
  rw [State.drawAt_eq, State.setFlag_eq, State.getV_setV_same,
    Bool.eq_false_iff.2 (mt State.foldl_flip_flag_iff.1 h)]
  rfl

theorem State.drawAt_vf_eq_one_iff : (s.drawAt x y n).getV 0xF = 1 ↔ s.collides x y n := by
  refine ⟨fun hone => ?_, State.drawAt_vf_of_collides⟩
  by_contra h
  exact absurd (hone.symm.trans (State.drawAt_vf_of_not_collides h)) (by decide)

/-- R162: the draw writes the framebuffer and VF alone. -/
theorem State.drawAt_frame (s : State) (x y n : Nibble) :
    s.sameVExcept (s.drawAt x y n) 0xF ∧
      s.drawAt x y n = { s with fb := (s.drawAt x y n).fb, v := (s.drawAt x y n).v } ∧
      s.sameBytes (s.drawAt x y n) :=
  ⟨fun _ hr => State.getV_setV_ne _ hr.symm _, rfl, fun _ => rfl⟩

/-- R162: with every sprite byte at or below 0xFFF the draw completes. -/
theorem exec_drw_draws (h : ∀ r : Nat, r < n.toNat → s.i.toNat + r ≤ 0xFFF) :
    exec (.drw x y n) s = .next (s.drawAt x y n) := by
  have hf : lowestFault readFaults s.i.toNat n.toNat = none :=
    lowestFault_eq_none.2 fun k hk => decide_eq_false (Nat.not_lt.2 (h k hk))
  simp only [exec, execDrw, hf]

/-- R57: a read with an address above 0xFFF faults on the first such address. -/
theorem lowestFault_read_of_above {base n r : Nat} (hr : r < n) (h : 0xFFF < base + r) :
    lowestFault readFaults base n = some (max base 0x1000) := by
  cases hf : lowestFault readFaults base n with
  | none => have := lowestFault_read_none.1 hf; omega
  | some a => rw [(lowestFault_read_some hf).1]

/-- What a draw covers depends on I, the two coordinates and memory. -/
theorem State.spriteCovers_congr {u : State} (hi : u.i = s.i) (hx : u.getV x = s.getV x) (hy : u.getV y = s.getV y)
    (hb : s.sameBytes u) (c r : Nat) : u.spriteCovers x y n c r ↔ s.spriteCovers x y n c r := by
  have hbytes : u.byteAt = s.byteAt := funext hb
  simp only [State.spriteCovers, hi, hx, hy, hbytes]

end

/-- Settles O27: a completed draw is one flip of each covered pixel and the collision flag; a sprite byte above 0xFFF makes
the read fault. -/
theorem drwFlipsTheCoveredPixels : Obligations.DrwFlipsTheCoveredPixels := by
  refine fun x y n => ⟨decodeWord_encode (.drw x y n), fun s => ⟨fun h => ?_, fun r hr h => ?_⟩⟩
  · refine ⟨s.drawAt x y n, exec_drw_draws h,
      fun r c hr hc => ⟨State.drawAt_pixel_covered hr hc, State.drawAt_pixel_uncovered hr hc⟩,
      State.drawAt_vf_of_collides, fun hoff => State.drawAt_vf_of_not_collides ?_, s.drawAt_frame x y n⟩
    rintro ⟨r, c, hr, hc, hcov, hon⟩
    exact Bool.false_ne_true ((hoff r c hr hc hcov).symm.trans hon)
  · exact exec_drw_fault x y (lowestFault_read_of_above hr h)

/-- Settles O28: both draws flip the same pixels, and a pixel the second one finds on under the sprite is one the first
turned on. -/
theorem drawingTwiceRestoresTheFramebuffer : Obligations.DrawingTwiceRestoresTheFramebuffer := by
  intro s t u x y n hin ht hfb hi hx hy hbytes
  obtain rfl := next_inj ((exec_drw_draws hin).symm.trans ht)
  have hcov := State.spriteCovers_congr (n := n) hi hx hy hbytes
  refine ⟨u.drawAt x y n, exec_drw_draws (by rwa [hi]), ?_, ?_, ?_⟩
  · refine Vector.ext fun r hr => Vector.ext fun c hc => ?_
    by_cases h : s.spriteCovers x y n c r
    · rw [State.drawAt_pixel_covered hr hc ((hcov c r).2 h)]
      simp only [hfb, State.drawAt_pixel_covered hr hc h, Bool.not_not]
    · rw [State.drawAt_pixel_uncovered hr hc (mt (hcov c r).1 h)]
      simp only [hfb, State.drawAt_pixel_uncovered hr hc h]
  · have hcollides : u.collides x y n ↔ ∃ (r c : Nat) (hr : r < 32) (hc : c < 64),
        s.fb[r][c] = false ∧ (s.drawAt x y n).fb[r][c] = true := by
      simp only [State.collides, hcov, hfb]
      refine exists₄_congr fun r c hr hc => ?_
      by_cases h : s.spriteCovers x y n c r
      · simp [h, State.drawAt_pixel_covered hr hc h]
      · simp [h, State.drawAt_pixel_uncovered hr hc h]
    exact State.drawAt_vf_eq_one_iff.trans hcollides
  · by_cases h : u.collides x y n
    · exact .inr (State.drawAt_vf_of_collides h)
    · exact .inl (State.drawAt_vf_of_not_collides h)

/-! ## LD F, CLS, and who changes the framebuffer -/

/-- R165: the address of a glyph does not wrap. -/
theorem glyphAddr_toNat (d : Nibble) : (glyphAddr d).toNat = 5 * d.toNat := by
  rw [glyphAddr, BitVec.toNat_ofNat]; omega

/-- Settles O29: a hex digit's glyph stands at five times the digit, and a value above 0x0F is no digit. -/
theorem ldFPointsAtTheGlyph : Obligations.LdFPointsAtTheGlyph := by
  intro x
  have hword : BitVec.ofNat 16 (0xF029 + 0x100 * x.toNat) = encode (.ldFVx x) := ofNat_match_add_x 0xF x 0x29
  rw [hword]
  refine ⟨decodeWord_encode _, fun s => ?_⟩
  cases hd : asDigit (s.getV x) with
  | none =>
    have habove := asDigit_eq_none.1 hd
    refine ⟨fun hle => absurd habove (Nat.not_lt.2 hle), fun _ => ?_⟩
    simp only [exec, execLdFVx, hd]
    rfl
  | some d =>
    obtain ⟨hval, hle⟩ := asDigit_eq_some hd
    refine ⟨fun _ => ⟨s.setI (glyphAddr d), ?_, ?_, rfl, fun _ => rfl⟩, fun habove => absurd habove (Nat.not_lt.2 hle)⟩
    · simp only [exec, execLdFVx, hd]
    · rw [State.setI_i, glyphAddr_toNat, hval]

/-- Settles O40: a step that runs no instruction keeps the framebuffer, and only CLS and DRW are excepted from an
instruction's frame. -/
theorem onlyClsAndDrwChangeTheFramebuffer : Obligations.OnlyClsAndDrwChangeTheFramebuffer := by
  intro s t h hne
  rcases step_cases h with ⟨f, -, rfl⟩ | ⟨x, -, rfl⟩ | ⟨hm, ⟨a, -, rfl⟩ | ⟨-, -, rfl⟩ | ⟨i, -, hw, hi⟩⟩
  · exact absurd rfl hne
  · rw [State.waitStep_frame] at hne; exact absurd rfl hne
  · exact absurd rfl hne
  · rw [State.invalidWord_frame] at hne; exact absurd rfl hne
  · rw [hw]
    refine ⟨hm, ?_⟩
    rcases (exec_frame hi).fb.resolve_left hne with rfl | ⟨x, y, n, rfl⟩
    · exact .inl rfl
    · exact .inr ⟨x, y, n, rfl⟩

/-- Settles O26: CLS puts the clear framebuffer in place of the old one. -/
theorem clsTurnsEveryPixelOff : Obligations.ClsTurnsEveryPixelOff := by
  refine ⟨decodeWord_encode .cls, fun s => ⟨s.setFb Framebuffer.clear, rfl, fun r c hr hc => ?_, rfl, fun _ => rfl⟩⟩
  simp only [State.setFb_fb, Framebuffer.clear, Vector.getElem_replicate]

end Sys2Proof.Machine
end

