-- ==== Sys2Proof/Proofs/InputTimer.lean ====
section
/-!
Keys and timers (spec/44_input_timer.md R180 to R186, spec/60_exceptions.md R231): the key skips, the wait of Fx0A and
the step that ends it, and the timer instructions, the only ones that set a timer. Each word is its instruction's
encoding, which the decoder reads back.
-/

namespace Sys2Proof

/-- R84: the word written from the match of an XFF row of family 0xE or 0xF decodes to that row's instruction. -/
theorem decodeWord_registerRow (op : Nibble) {x : Nibble} (ff : Byte) {i : Instr} (h : encode i = encodeXKK op x ff) :
    decodeWord (BitVec.ofNat 16 (0x1000 * op.toNat + ff.toNat + 0x100 * x.toNat)) = some i := by
  rw [ofNat_match_add_x, ← h, decodeWord_encode]

end Sys2Proof

namespace Sys2Proof.Machine

/-! ## The key skips, one equation per answer of the digit check -/

section
variable {s : State} {x k : Nibble}

theorem exec_skp_of_digit (h : asDigit (s.getV x) = some k) :
    exec (.skp x) s = .next (s.skipIf (s.isPressed k)) := by
  simp only [exec, execSkp, h]

theorem exec_sknp_of_digit (h : asDigit (s.getV x) = some k) :
    exec (.sknp x) s = .next (s.skipIf (!s.isPressed k)) := by
  simp only [exec, execSknp, h]

theorem exec_skp_fault (h : 0xF < (s.getV x).toNat) :
    exec (.skp x) s = .next (s.raiseIn (.skp x) .operandFault (.operand (s.getV x))) := by
  simp only [exec, execSkp, asDigit_eq_none.2 h]

theorem exec_sknp_fault (h : 0xF < (s.getV x).toNat) :
    exec (.sknp x) s = .next (s.raiseIn (.sknp x) .operandFault (.operand (s.getV x))) := by
  simp only [exec, execSknp, asDigit_eq_none.2 h]

/-- R29, R235: a byte that indexes a key is that key's id. -/
theorem State.isPressed_of_keys {v : Byte} {b : Bool} (h : s.keys[v.toNat]? = some b) :
    ∃ k, asDigit v = some k ∧ s.isPressed k = b := by
  obtain ⟨hlt, hb⟩ := Vector.getElem?_eq_some_iff.1 h
  cases hd : asDigit v with
  | none => have := asDigit_eq_none.1 hd; omega
  | some k =>
    obtain ⟨hval, -⟩ := asDigit_eq_some hd
    refine ⟨k, rfl, ?_⟩
    simp only [State.isPressed, hval, hb]

end

/-- Settles O30: on a key id both are skips, on the key's state and on its negation; any other value is no digit. -/
theorem keySkipsTestTheKey : Obligations.KeySkipsTestTheKey := by
  intro x
  have hskp : BitVec.ofNat 16 (0xE09E + 0x100 * x.toNat) = encode (.skp x) := ofNat_match_add_x 0xE x 0x9E
  have hsknp : BitVec.ofNat 16 (0xE0A1 + 0x100 * x.toNat) = encode (.sknp x) := ofNat_match_add_x 0xE x 0xA1
  rw [hskp, hsknp]
  refine ⟨decodeWord_encode _, decodeWord_encode _, fun s => ⟨fun b hb => ?_, fun habove =>
    ⟨exec_skp_fault habove, exec_sknp_fault habove⟩⟩⟩
  obtain ⟨k, hk, rfl⟩ := State.isPressed_of_keys hb
  refine ⟨exec_skip (exec_skp_of_digit hk) Iff.rfl, ?_⟩
  rw [← ite_not]
  exact exec_skip (exec_sknp_of_digit hk) (by rw [Bool.not_eq_true', Bool.not_eq_true])

/-! ## The timers -/

/-- Settles O41: a step that runs no instruction keeps both timers, and only Fx15 and Fx18 are excepted from an
instruction's frame. -/
theorem onlyFx15AndFx18SetTheTimers : Obligations.OnlyFx15AndFx18SetTheTimers := by
  intro s t h
  rcases step_frame h with ht | ⟨i, hw, hf⟩
  · rw [ht]; exact ⟨absurd rfl, absurd rfl⟩
  · rw [hw]
    constructor
    · intro hne
      obtain ⟨x, rfl⟩ := hf.dt.resolve_left hne
      exact ⟨x, rfl⟩
    · intro hne
      obtain ⟨x, rfl⟩ := hf.st.resolve_left hne
      exact ⟨x, rfl⟩

/-- Settles O32: one write of `V[x]`, of DT or of ST each. -/
theorem timerInstructionsMoveTheByte : Obligations.TimerInstructionsMoveTheByte := fun x =>
  ⟨decodeWord_registerRow 0xF 0x07 rfl, decodeWord_registerRow 0xF 0x15 rfl, decodeWord_registerRow 0xF 0x18 rfl,
    fun s => ⟨⟨s.setV x s.dt, rfl, s.getV_setV_same x _, s.setV_frame x _⟩, rfl, rfl⟩⟩

/-! ## The wait for a key -/

/-- Settles O31: the instruction clears the latch and sets the mode. -/
theorem ldVxKBeginsTheWait : Obligations.LdVxKBeginsTheWait := fun _ =>
  ⟨decodeWord_registerRow 0xF 0x0A rfl, fun _ => rfl⟩

/-- Settles O3: a step in WaitingForKey is the waiting step, which does nothing or moves the latched key to `V[x]`. -/
theorem waitingStepConsumesTheLatch : Obligations.WaitingStepConsumesTheLatch := by
  intro s x hm
  rw [step_of_waiting hm, State.waitStep_eq]
  refine ⟨fun hl => by rw [hl], fun k hl => ?_⟩
  rw [hl]
  refine ⟨_, rfl, ?_, fun r hr => State.getV_setV_ne s hr.symm _, rfl, rfl, rfl, fun _ => rfl⟩
  rw [State.getV_setMode, State.getV_setV_same, BitVec.toNat_setWidth_of_le (by decide)]

end Sys2Proof.Machine
end

