-- ==== Sys2Proof/Proofs/IndexMemory.lean ====
section
/-!
The index register and memory transfer (spec/45_index_memory.md R200 to R205). A transfer either passes its address check,
and one equation says what it answers then, or faults at the lowest address that the check refuses. What a run of stores
leaves at and around its addresses is said once for both stores. Each word is its instruction's encoding, which the decoder
reads back.
-/

namespace Sys2Proof.Machine

/-! ## The index register -/

/-- A write of I leaves every other piece of state and every byte of memory. -/
theorem State.setI_frame (s : State) (w : Word) : s.setI w = { s with i := (s.setI w).i } ∧ s.sameBytes (s.setI w) :=
  ⟨rfl, fun a => s.byteAt_setI a w⟩

/-- R201: the index sum wraps at 16 bits. -/
theorem add_zextByte_toNat (w : Word) (b : Byte) : (w + zextByte b).toNat = (w.toNat + b.toNat) % 65536 := by
  rw [BitVec.toNat_add, zextByte_toNat]

/-- R205: I after a block transfer, as a natural number. -/
theorem State.indexAfter_toNat (s : State) (x : Nibble) :
    (s.indexAfter x).toNat = (match s.config.loadStoreI with
      | .unchanged => s.i.toNat
      | .plusXPlus1 => s.i.toNat + x.toNat + 1
      | .plusX => s.i.toNat + x.toNat) % 65536 := by
  have hx : (x.setWidth 16).toNat = x.toNat := BitVec.toNat_setWidth_of_le (by decide)
  unfold State.indexAfter
  cases s.config.loadStoreI with
  | unchanged => exact (Nat.mod_eq_of_lt s.i.isLt).symm
  | plusXPlus1 =>
    rw [BitVec.toNat_add, BitVec.toNat_add, hx]
    exact Nat.mod_add_mod (s.i.toNat + x.toNat) 65536 1
  | plusX => rw [BitVec.toNat_add, hx]

/-- Settles O33: both are one write of I. -/
theorem indexIsLoadedAndAddedTo : Obligations.IndexIsLoadedAndAddedTo := fun nnn x =>
  ⟨decodeWord_encode (.ldI nnn), decodeWord_registerRow 0xF 0x1E rfl, fun s =>
    ⟨⟨_, rfl, zextAddr_toNat nnn, s.setI_frame _⟩, ⟨_, rfl, add_zextByte_toNat s.i (s.getV x), s.setI_frame _⟩⟩⟩

/-! ## A run of stores -/

/-- R57, R54: a store faults at `a` when `a` is one of its addresses, may not be written, and every lower one may. -/
theorem lowestFault_write_eq {base n a : Nat} (hge : base ≤ a) (hlt : a < base + n) (hfault : 0xFFF < a ∨ a ≤ 0x04F)
    (hbelow : ∀ b, base ≤ b → b < a → ¬ (0xFFF < b ∨ b ≤ 0x04F)) : lowestFault writeFaults base n = some a :=
  Access.lowestFault_eq (k := .write) hge hlt (by simpa using hfault) (by simpa using hbelow)

section
variable {s : State} {base : Nat} {bs : List Byte}

/-- R58: the `k`-th byte of a run of stores stands at `base + k`. -/
theorem State.byteAt_putBytes_add (hwf : Memory.wf s.config s.mem = true) (hb : base + bs.length ≤ memSize) {k : Nat}
    (hk : k < bs.length) : (s.putBytes base bs).byteAt (base + k) = bs[k] := by
  rw [State.byteAt_putBytes hwf hb, if_pos (by omega), Nat.add_sub_cancel_left, List.getD_eq_getElem _ _ hk]

theorem State.sameBytesOutside_putBytes (hwf : Memory.wf s.config s.mem = true) (hb : base + bs.length ≤ memSize) :
    s.sameBytesOutside (s.putBytes base bs) base bs.length := fun a ha => by
  rw [State.byteAt_putBytes hwf hb, if_neg (by omega)]

end

/-! ## The transfers that pass their address check -/

section
variable {s : State} {x : Nibble}

theorem exec_ldBVx_stores (hlow : 0x50 ≤ s.i.toNat) (hhigh : s.i.toNat + 3 ≤ memSize) :
    exec (.ldBVx x) s = .next (s.putBytes s.i.toNat (bcdDigits (s.getV x))) := by
  have hf : lowestFault writeFaults s.i.toNat 3 = none := lowestFault_write_none.2 (.inr ⟨hlow, hhigh⟩)
  simp only [exec, execLdBVx, hf]

theorem exec_ldMemVx_stores (hlow : 0x50 ≤ s.i.toNat) (hhigh : s.i.toNat + (x.toNat + 1) ≤ memSize) :
    exec (.ldMemVx x) s = .next ((s.putBytes s.i.toNat (s.regsUpTo x)).setI (s.indexAfter x)) := by
  have hf : lowestFault writeFaults s.i.toNat (x.toNat + 1) = none := lowestFault_write_none.2 (.inr ⟨hlow, hhigh⟩)
  simp only [exec, execLdMemVx, blockSize, hf]

theorem exec_ldVxMem_loads (h : s.i.toNat + (x.toNat + 1) ≤ memSize) :
    exec (.ldVxMem x) s =
      .next ((s.loadRegs 0 (s.bytesFrom s.i.toNat (x.toNat + 1))).setI (s.indexAfter x)) := by
  have hf : lowestFault readFaults s.i.toNat (x.toNat + 1) = none := lowestFault_read_none.2 (.inr h)
  simp only [exec, execLdVxMem, blockSize, hf]

end

@[simp] theorem length_bcdDigits (b : Byte) : (bcdDigits b).length = 3 := rfl

/-- R202: each digit of a byte fits the byte stored for it. -/
theorem getElem_bcdDigits_toNat (b : Byte) :
    (bcdDigits b)[0].toNat = b.toNat / 100 ∧ (bcdDigits b)[1].toNat = b.toNat / 10 % 10 ∧
      (bcdDigits b)[2].toNat = b.toNat % 10 := by
  simp only [bcdDigits, List.getElem_cons_zero, List.getElem_cons_succ, BitVec.toNat_ofNat]
  omega

/-- Settles O34: with its three addresses fit for a store it is the store of the digits, else it faults at the lowest that
is not. -/
theorem ldBStoresTheDigits : Obligations.LdBStoresTheDigits := by
  intro x
  have hword : BitVec.ofNat 16 (0xF033 + 0x100 * x.toNat) = encode (.ldBVx x) := ofNat_match_add_x 0xF x 0x33
  rw [hword]
  refine ⟨decodeWord_encode _, fun s => ⟨fun hwf hlow hhigh => ?_, fun a hge hle hfault hbelow =>
    exec_ldBVx_fault x (lowestFault_write_eq hge (by omega) hfault hbelow)⟩⟩
  have hb : s.i.toNat + (bcdDigits (s.getV x)).length ≤ memSize := Nat.succ_le_succ hhigh
  have hbyte := fun k => State.byteAt_putBytes_add (k := k) hwf hb
  obtain ⟨hhundreds, htens, hones⟩ := getElem_bcdDigits_toNat (s.getV x)
  exact ⟨_, exec_ldBVx_stores hlow hb, (congrArg BitVec.toNat (hbyte 0 (by simp))).trans hhundreds,
    (congrArg BitVec.toNat (hbyte 1 (by simp))).trans htens, (congrArg BitVec.toNat (hbyte 2 (by simp))).trans hones,
    State.sameBytesOutside_putBytes hwf hb, s.putBytes_frame _ _⟩

/-- Settles O35: with every address fit for a store it is the store of V0..Vx and one write of I, else it faults at the
lowest address that is not. -/
theorem ldMemStoresTheRegisters : Obligations.LdMemStoresTheRegisters := by
  intro x
  have hword : BitVec.ofNat 16 (0xF055 + 0x100 * x.toNat) = encode (.ldMemVx x) := ofNat_match_add_x 0xF x 0x55
  rw [hword]
  refine ⟨decodeWord_encode _, fun s => ⟨fun hwf hlow hhigh => ?_, fun a hge hle hfault hbelow =>
    exec_ldMemVx_fault (lowestFault_write_eq hge (by omega) hfault hbelow)⟩⟩
  have hlen := s.length_regsUpTo x
  have hb : s.i.toNat + (s.regsUpTo x).length ≤ memSize := by rw [hlen]; exact Nat.succ_le_succ hhigh
  refine ⟨_, exec_ldMemVx_stores hlow (hlen ▸ hb), fun r hr => ?_, ?_, s.indexAfter_toNat x,
    congrArg (State.setI · _) (s.putBytes_frame _ _)⟩
  · rw [State.byteAt_setI, State.byteAt_putBytes_add hwf hb (by omega), State.getElem_regsUpTo, BitVec.ofNat_toNat,
      BitVec.setWidth_eq]
  · rw [← hlen]
    exact State.sameBytesOutside_putBytes hwf hb

/-- Settles O36: with every address at or below 0xFFF it is the load of V0..Vx and one write of I, else the read faults at
the first address above. -/
theorem ldVxMemLoadsTheRegisters : Obligations.LdVxMemLoadsTheRegisters := by
  intro x
  have hword : BitVec.ofNat 16 (0xF065 + 0x100 * x.toNat) = encode (.ldVxMem x) := ofNat_match_add_x 0xF x 0x65
  rw [hword]
  refine ⟨decodeWord_encode _, fun s => ⟨fun h => ?_, fun h =>
    exec_ldVxMem_fault (lowestFault_read_of_above (Nat.lt_succ_self _) h)⟩⟩
  have hb : s.i.toNat + (x.toNat + 1) ≤ memSize := Nat.succ_le_succ h
  obtain ⟨t, ht, hload⟩ := exec_ldVxMem_getV hb
  obtain rfl := next_inj ((exec_ldVxMem_loads hb).symm.trans ht)
  refine ⟨_, ht, hload, fun r hr => ?_, s.indexAfter_toNat x, congrArg (State.setI · _) (s.loadRegs_frame _ _), ?_⟩
  · have hlen := s.length_bytesFrom s.i.toNat (x.toNat + 1)
    rw [State.getV_setI, State.getV_loadRegs s (by omega), if_neg (by omega)]
  · intro a
    rw [State.byteAt_setI, State.loadRegs_frame]
    rfl

end Sys2Proof.Machine
end

