-- ==== Sys2Proof/Proofs/Exceptions.lean ====
section
/-!
Error entry, ticks and input (spec/60_exceptions.md R222 to R236): an instruction that halts the core has done nothing else,
a tick touches the timers alone, and of input only a first press of a wait goes beyond the keys.
-/

namespace Sys2Proof.Machine

/-! ## Error entry (R222, R223) -/

/-- R222: an instruction that enters Halted is error entry with a record of its own word and address, and nothing else. -/
theorem exec_halts {i : Instr} {s t : State} {f : FaultRecord} (h : exec i s = .next t) (hs : s.mode = .running)
    (ht : t.mode = .halted f) : t = s.raise f ∧ f.addr = s.insnAddr ∧ f.word = some (encode i) := by
  cases exec_end h with
  | underflow heq | overflow heq | read _ _ heq | write _ _ heq | operand _ _ heq =>
    subst heq
    obtain rfl := Mode.halted.inj ht
    exact ⟨rfl, rfl, rfl⟩
  | wait x _ hw => rw [hw] at ht; cases ht
  | done hm _ => rw [hm, hs] at ht; cases ht

/-- R91: an invalid word that halts the core enters the error with its own word and address. -/
theorem State.invalidWord_halts {s : State} {w : Word} {f : FaultRecord} (hs : s.mode = .running)
    (ht : (s.invalidWord w).mode = .halted f) :
    s.invalidWord w = s.raise f ∧ f.addr = s.insnAddr ∧ f.word = some w := by
  unfold State.invalidWord at ht ⊢
  cases hp : s.config.invalidOpcodePolicy with
  | halt =>
    rw [hp] at ht
    obtain rfl := Mode.halted.inj ht
    exact ⟨rfl, rfl, rfl⟩
  | skip => rw [hp] at ht; cases hs.symm.trans ht

/-- Settles O6: a fetch fault halts before pc advances; an invalid word and an instruction halt in the state whose pc is
advanced, with the address and the word of the fetch. -/
theorem errorsArePrecise : Obligations.ErrorsArePrecise := by
  intro s t f hs h ht
  have hres := State.result_of_halted ht
  have executed (heq : t = (s.setPc (s.pc + 2)).raise f) (haddr : f.addr = (s.setPc (s.pc + 2)).insnAddr)
      (hword : f.word = some s.fetchWord) :
      t = { s with pc := t.pc, mode := .halted f } ∧ f.addr = s.pc ∧ t.result = .error f ∧
        ((f.word = none ∧ t.pc = s.pc) ∨ (f.word = some s.fetchWord ∧ t.pc = s.pc + 2)) := by
    subst heq
    exact ⟨rfl, haddr.trans s.insnAddr_advanced, hres, .inr ⟨hword, rfl⟩⟩
  rcases step_cases h with ⟨g, hm, -⟩ | ⟨x, hm, -⟩ | ⟨-, ⟨a, -, rfl⟩ | ⟨-, -, rfl⟩ | ⟨i, -, hw, hi⟩⟩
  · rw [hs] at hm; cases hm
  · rw [hs] at hm; cases hm
  · obtain rfl := Mode.halted.inj ht
    exact ⟨rfl, rfl, hres, .inl ⟨rfl, rfl⟩⟩
  · obtain ⟨heq, haddr, hword⟩ := State.invalidWord_halts (s := s.setPc (s.pc + 2)) hs ht
    exact executed heq haddr hword
  · obtain ⟨heq, haddr, hword⟩ := exec_halts hi hs ht
    exact executed heq haddr (by rw [hword, encode_of_decodeWord hw])

/-! ## The tick (R230) -/

section
variable (s : State)

/-- R230: a tick writes the timers alone. -/
theorem State.tickTimers_frame : s.tickTimers = { s with dt := s.tickTimers.dt, st := s.tickTimers.st } := by
  unfold State.tickTimers
  split <;> rfl

/-- R239: a tick of `advance` writes the timers and its count alone. -/
theorem State.runTick_frame :
    s.runTick = { s with dt := s.tickTimers.dt, st := s.tickTimers.st, tmrDone := s.tmrDone + 1 } := by
  rw [State.runTick, State.tickTimers_frame]

end

theorem State.isHalted_of_live {s : State} (h : s.live) : s.isHalted = false := s.isHalted_false_iff.2 h

theorem State.isHalted_of_mode {s : State} {f : FaultRecord} (hm : s.mode = .halted f) : s.isHalted = true :=
  s.isHalted_iff.2 ⟨f, hm⟩

/-- Settles O53: a tick of a live core counts both timers down, and one of a halted core is none. -/
theorem ticksCountTheTimersDown : Obligations.TicksCountTheTimersDown := by
  refine fun s => ⟨fun hlive => ?_, fun f hm => State.tickTimers_halted (State.isHalted_of_mode hm)⟩
  rw [State.tickTimers_eq (State.isHalted_of_live hlive)]
  exact ⟨countDown_toNat s.dt, countDown_toNat s.st, rfl⟩

/-! ## Input (R235, R236) -/

section
variable {s : State} {k : Nibble} {b : Bool}

/-- R236: a press is latched exactly when the core waits, nothing is latched and the key goes from released to pressed. -/
theorem State.latches_iff :
    s.latches k b = true ↔ (∃ x, s.mode = .waitingForKey x) ∧ s.latch = none ∧ s.isPressed k = false ∧ b = true := by
  unfold State.latches
  cases s.mode with
  | waitingForKey x =>
    simp only [Bool.and_eq_true, Bool.not_eq_true', Option.isNone_iff_eq_none, Mode.waitingForKey.injEq, exists_eq',
      true_and]
    tauto
  | running | halted f => simp

theorem State.setPressed_latch : (s.setPressed k b).latch = if s.latches k b then some k else s.latch := by
  unfold State.setPressed
  split <;> rfl

/-- R236: a press or release writes the keys and the latch alone. -/
theorem State.setPressed_frame (s : State) (k : Nibble) (b : Bool) :
    s.setPressed k b = { s with keys := (s.setPressed k b).keys, latch := (s.setPressed k b).latch } := by
  unfold State.setPressed
  split <;> rfl

theorem State.setPressed_keys : (s.setPressed k b).keys = s.keys.set k.toNat b k.isLt := rfl

theorem State.isPressed_setPressed (r : Nibble) :
    (s.setPressed k b).isPressed r = if k = r then b else s.isPressed r := by
  simp only [State.isPressed, State.setPressed_keys, Vector.getElem_set, BitVec.toNat_inj]

theorem State.isPressed_clearKeys (r : Nibble) : s.clearKeys.isPressed r = false := Vector.getElem_replicate r.isLt

end

/-- Settles O54: the latch is written on the condition of R236 alone, one key is, and clear_keys and the poll are one write
each. -/
theorem theFirstPressOfAWaitIsLatched : Obligations.TheFirstPressOfAWaitIsLatched := by
  intro s k b
  refine ⟨fun hwait hlatch hkey hb => ?_, fun hnot => ?_, ?_, fun r hr => ?_, s.setPressed_frame k b,
    State.isPressed_clearKeys, rfl, rfl⟩
  · rw [State.setPressed_latch, if_pos (State.latches_iff.2 ⟨hwait, hlatch, hkey, hb⟩)]
  · rw [State.setPressed_latch, if_neg]
    intro hlatches
    obtain ⟨⟨x, hx⟩, hlatch, hkey, rfl⟩ := State.latches_iff.1 hlatches
    rcases hnot with hmode | hlatched | hheld | hreleased
    · exact hmode x hx
    · exact hlatched hlatch
    · exact Bool.false_ne_true (hkey.symm.trans hheld)
    · exact Bool.false_ne_true hreleased.symm
  · rw [State.isPressed_setPressed, if_pos rfl]
  · rw [State.isPressed_setPressed, if_neg hr.symm]

/-! ## Halted is terminal (R226) -/

theorem advance_of_halted {s : State} {f : FaultRecord} (hm : s.mode = .halted f) (ns : Nat) :
    advance ns s = .next s := by
  rw [advance, if_pos (State.isHalted_of_mode hm)]

/-- R236: without a wait, a press or release writes the keys alone. -/
theorem State.setPressed_of_halted {s : State} {f : FaultRecord} (hm : s.mode = .halted f) (k : Nibble) (b : Bool) :
    s.setPressed k b = { s with keys := (s.setPressed k b).keys } := by
  have hnot : ¬ s.latches k b = true := fun h => by
    obtain ⟨⟨x, hx⟩, -⟩ := State.latches_iff.1 h
    rw [hm] at hx
    cases hx
  rw [State.setPressed, if_neg hnot]
  rfl

/-- Settles O4: in Halted a step, a tick and an advance are the identity, and input reaches the keys alone. -/
theorem haltedIsTerminal : Obligations.HaltedIsTerminal := fun s _ hm =>
  ⟨step_of_halted hm, State.tickTimers_halted (State.isHalted_of_mode hm), advance_of_halted hm,
    State.result_of_halted hm,
    fun k b => ⟨State.setPressed_of_halted hm k b, by rw [State.isPressed_setPressed, if_pos rfl]⟩, rfl,
    State.isPressed_clearKeys⟩

end Sys2Proof.Machine
end

