-- ==== Sys2Proof/Proofs/Scheduler.lean ====
section
/-!
The scheduler (spec/60_exceptions.md R238 to R240). The number of events due falls by one with every event taken, so the
fuel `advance` gives its loop is what the loop needs: `State.runDue` meets R239's loop as equations without fuel, and
`RunsDue` is the loop's run as a relation, along which the invariants are proved.
-/

namespace Sys2Proof.Machine

/-! ## What is due, as arithmetic -/

section
variable {s : State}

theorem State.cpuDue_iff : s.cpuDue = true ↔ (s.cpuDone + 1) * 1000000000 ≤ s.tNs * s.config.cpuHz :=
  decide_eq_true_iff

theorem State.tmrDue_iff : s.tmrDue = true ↔ (s.tmrDone + 1) * 1000000000 ≤ s.tNs * 60 := decide_eq_true_iff

/-- R239: a tick goes first when it is due, and no step is due or the tick is due no later than the step. -/
theorem State.tickFirst_iff : s.tickFirst = true ↔
    s.tmrDue = true ∧ (s.cpuDue = false ∨ (s.tmrDone + 1) * s.config.cpuHz ≤ (s.cpuDone + 1) * 60) := by
  rw [State.tickFirst, Bool.and_eq_true, Bool.or_eq_true, Bool.not_eq_true', decide_eq_true_iff, timerHz]

/-- R239: where a tick does not go first, a due tick waits for a step that is due strictly before it. -/
theorem State.tickFirst_eq_false_iff : s.tickFirst = false ↔
    (s.tmrDue = true → s.cpuDue = true ∧ (s.cpuDone + 1) * 60 < (s.tmrDone + 1) * s.config.cpuHz) := by
  simp [← Bool.not_eq_true, State.tickFirst_iff]

/-- R239: each turn of the loop ends the call, or takes a due tick, or takes a due step. -/
theorem State.turn_cases (s : State) :
    (s.cpuDue = false ∧ s.tmrDue = false) ∨ s.tickFirst = true ∨ (s.cpuDue = true ∧ s.tickFirst = false) := by
  cases hfirst : s.tickFirst with
  | true => exact .inr (.inl rfl)
  | false =>
    cases hcpu : s.cpuDue with
    | true => exact .inr (.inr ⟨rfl, rfl⟩)
    | false =>
      refine .inl ⟨rfl, Bool.eq_false_iff.2 fun htmr => ?_⟩
      rw [(State.tickFirst_eq_false_iff.1 hfirst htmr).1] at hcpu
      cases hcpu

/-! ## The number of events due -/

theorem State.cpuDue_iff_lt : s.cpuDue = true ↔ s.cpuDone < s.tNs * s.config.cpuHz / 1000000000 := by
  rw [State.cpuDue_iff, ← Nat.le_div_iff_mul_le (by decide)]
  rfl

theorem State.tmrDue_iff_lt : s.tmrDue = true ↔ s.tmrDone < s.tNs * 60 / 1000000000 := by
  rw [State.tmrDue_iff, ← Nat.le_div_iff_mul_le (by decide)]
  rfl

theorem State.eventsDue_eq (s : State) : s.eventsDue =
    (s.tNs * s.config.cpuHz / 1000000000 - s.cpuDone) + (s.tNs * 60 / 1000000000 - s.tmrDone) := rfl

theorem State.eventsDue_of_idle (hcpu : s.cpuDue = false) (htmr : s.tmrDue = false) : s.eventsDue = 0 := by
  rw [← Bool.not_eq_true, State.cpuDue_iff_lt] at hcpu
  rw [← Bool.not_eq_true, State.tmrDue_iff_lt] at htmr
  rw [State.eventsDue_eq]
  omega

theorem State.eventsDue_of_tick (htmr : s.tmrDue = true) : s.eventsDue = s.runTick.eventsDue + 1 := by
  rw [State.tmrDue_iff_lt] at htmr
  rw [State.runTick_frame, State.eventsDue_eq, State.eventsDue_eq]
  dsimp only
  omega

theorem State.eventsDue_of_step {t : State} (hcpu : s.cpuDue = true) (h : step s.countStep = .next t) :
    s.eventsDue = t.eventsDue + 1 := by
  obtain ⟨-, hconfig, htNs, hcpuDone, htmrDone, -⟩ := stepsLeaveTheHostsStateAlone _ t h
  rw [State.cpuDue_iff_lt] at hcpu
  rw [State.eventsDue_eq, State.eventsDue_eq, hconfig, htNs, hcpuDone, htmrDone]
  simp only [State.countStep_config, State.countStep_tNs, State.countStep_cpuDone, State.countStep_tmrDone]
  omega

/-! ## The loop, one equation per turn -/

/-- R239: the loop with as many turns as there are events due: what `advance` runs once the time has passed. -/
def State.runDue (s : State) : Host.Outcome State Fault Refusal := advanceLoop s.eventsDue s

theorem advance_of_live (h : s.live) (ns : Nat) : advance ns s = (s.addTime ns).runDue := by
  rw [advance, State.isHalted_of_live h]
  rfl

theorem advance_zero_of_live (h : s.live) : advance 0 s = s.runDue := advance_of_live h 0

theorem State.runDue_of_idle (hcpu : s.cpuDue = false) (htmr : s.tmrDue = false) : s.runDue = .next s := by
  rw [State.runDue, State.eventsDue_of_idle hcpu htmr, advanceLoop]

theorem State.runDue_of_tick (h : s.tickFirst = true) : s.runDue = s.runTick.runDue := by
  have htmr := (State.tickFirst_iff.1 h).1
  rw [State.runDue, State.eventsDue_of_tick htmr, advanceLoop]
  simp [htmr, h, State.runDue]

theorem State.runDue_of_step {t : State} (hcpu : s.cpuDue = true) (hfirst : s.tickFirst = false)
    (h : step s.countStep = .next t) : s.runDue = if t.isHalted then .next t else t.runDue := by
  rw [State.runDue, State.eventsDue_of_step hcpu h, advanceLoop]
  simp [hcpu, hfirst, h, State.runDue]

end

/-! ## The run of the loop as a relation -/

/-- R239: the loop entered in `s` ends in `t`. -/
inductive RunsDue (t : State) : State → Prop where
  | idle (hcpu : t.cpuDue = false) (htmr : t.tmrDue = false) : RunsDue t t
  | tick {s : State} (hfirst : s.tickFirst = true) (hrest : RunsDue t s.runTick) : RunsDue t s
  | error {s : State} (hcpu : s.cpuDue = true) (hfirst : s.tickFirst = false) (hstep : step s.countStep = .next t)
      (hhalt : t.isHalted = true) : RunsDue t s
  | step {s u : State} (hcpu : s.cpuDue = true) (hfirst : s.tickFirst = false) (hstep : step s.countStep = .next u)
      (hlive : u.isHalted = false) (hrest : RunsDue t u) : RunsDue t s

theorem State.runDue_runs {s t : State} (h : s.runDue = .next t) : RunsDue t s := by
  induction hn : s.eventsDue generalizing s with
  | zero =>
    rw [State.runDue, hn] at h
    obtain rfl := next_inj h
    rcases s.turn_cases with ⟨hcpu, htmr⟩ | hfirst | ⟨hcpu, -⟩
    · exact .idle hcpu htmr
    · rw [State.eventsDue_of_tick (State.tickFirst_iff.1 hfirst).1] at hn
      cases hn
    · obtain ⟨u, hu⟩ := step_answers s.countStep
      rw [State.eventsDue_of_step hcpu hu] at hn
      cases hn
  | succ n ih =>
    rcases s.turn_cases with ⟨hcpu, htmr⟩ | hfirst | ⟨hcpu, hfirst⟩
    · rw [State.eventsDue_of_idle hcpu htmr] at hn
      cases hn
    · rw [State.eventsDue_of_tick (State.tickFirst_iff.1 hfirst).1] at hn
      rw [State.runDue_of_tick hfirst] at h
      exact .tick hfirst (ih h (Nat.succ.inj hn))
    · obtain ⟨u, hu⟩ := step_answers s.countStep
      rw [State.eventsDue_of_step hcpu hu] at hn
      rw [State.runDue_of_step hcpu hfirst hu] at h
      cases hhalt : u.isHalted with
      | true =>
        rw [hhalt] at h
        obtain rfl := next_inj h
        exact .error hcpu hfirst hu hhalt
      | false =>
        rw [hhalt] at h
        exact .step hcpu hfirst hu hhalt (ih h (Nat.succ.inj hn))

/-- R239, R226: an advance of a halted core does nothing, and one of a live core runs what is due once the time has
passed. -/
theorem advance_cases {s t : State} {ns : Nat} (h : advance ns s = .next t) :
    ((∃ f, s.mode = .halted f) ∧ t = s) ∨ (s.live ∧ RunsDue t (s.addTime ns)) := by
  cases hhalt : s.isHalted with
  | true =>
    obtain ⟨f, hm⟩ := s.isHalted_iff.1 hhalt
    rw [advance_of_halted hm] at h
    exact .inl ⟨⟨f, hm⟩, (next_inj h).symm⟩
  | false =>
    have hlive : s.live := s.isHalted_false_iff.1 hhalt
    rw [advance_of_live hlive] at h
    exact .inr ⟨hlive, State.runDue_runs h⟩

/-- Settles O57: each clause is one equation of the loop. -/
theorem advanceTakesEventsInTimeOrder : Obligations.AdvanceTakesEventsInTimeOrder := by
  intro s ns cpuDue tmrDue hcpu htmr
  rw [← State.cpuDue_iff] at hcpu
  rw [← State.tmrDue_iff] at htmr
  rw [hcpu, htmr, Bool.not_eq_true, Bool.not_eq_true]
  refine ⟨fun f hm => ⟨advance_of_halted hm ns, State.result_of_halted hm⟩, fun hlive => ?_, fun hlive hc ht => ?_,
    fun hlive ht horder => ?_, fun hlive hc horder => ?_⟩
  · have hlive' : (s.addTime ns).live := hlive
    exact (advance_of_live hlive ns).trans (advance_zero_of_live hlive').symm
  · rw [advance_zero_of_live hlive, State.runDue_of_idle hc ht]
  · have hlive' : s.runTick.live := by rw [State.runTick_frame]; exact hlive
    rw [advance_zero_of_live hlive, State.runDue_of_tick (State.tickFirst_iff.2 ⟨ht, horder⟩)]
    exact (advance_zero_of_live hlive').symm
  · have hfirst : s.tickFirst = false := State.tickFirst_eq_false_iff.2 fun ht =>
      ⟨hc, horder.resolve_left (by rw [ht]; decide)⟩
    obtain ⟨t, ht⟩ := step_answers s.countStep
    have hrun := State.runDue_of_step hc hfirst ht
    refine ⟨t, ht, fun f hm => ?_, fun hlive' => ?_⟩
    · rw [advance_zero_of_live hlive, hrun, if_pos (State.isHalted_of_mode hm)]
    · rw [advance_zero_of_live hlive, advance_zero_of_live hlive', hrun, State.isHalted_of_live hlive',
        if_neg Bool.false_ne_true]

/-! ## The invariant of the scheduler -/

section
variable {s t : State}

theorem State.schedInv_addTime (h : s.schedInv) (ns : Nat) : (s.addTime ns).schedInv := by
  obtain ⟨hcpu, htmr⟩ := h
  exact ⟨hcpu.trans (Nat.mul_le_mul_right _ (Nat.le_add_right _ _)),
    htmr.trans (Nat.mul_le_mul_right _ (Nat.le_add_right _ _))⟩

/-- R239: a tick is counted only when it is due. -/
theorem State.schedInv_runTick (h : s.schedInv) (hfirst : s.tickFirst = true) : s.runTick.schedInv := by
  rw [State.runTick_frame]
  exact ⟨h.1, State.tmrDue_iff.1 (State.tickFirst_iff.1 hfirst).1⟩

/-- R239: a step is counted only when it is due. -/
theorem State.schedInv_countStep (h : s.schedInv) (hcpu : s.cpuDue = true) : s.countStep.schedInv :=
  ⟨State.cpuDue_iff.1 hcpu, h.2⟩

theorem step_tNs (h : step s = .next t) : t.tNs = s.tNs := by
  obtain ⟨-, -, htNs, -⟩ := stepsLeaveTheHostsStateAlone s t h
  exact htNs

theorem step_schedInv (hs : s.schedInv) (h : step s = .next t) : t.schedInv := by
  obtain ⟨-, hconfig, htNs, hcpuDone, htmrDone, -⟩ := stepsLeaveTheHostsStateAlone s t h
  rw [State.schedInv, hconfig, htNs, hcpuDone, htmrDone]
  exact hs

end

/-! ## What a run leaves due -/

section
variable {s t : State}

theorem RunsDue.schedInv (h : RunsDue t s) (hs : s.schedInv) : t.schedInv := by
  induction h with
  | idle => exact hs
  | tick hfirst _ ih => exact ih (State.schedInv_runTick hs hfirst)
  | error hcpu _ hstep _ => exact step_schedInv (State.schedInv_countStep hs hcpu) hstep
  | step hcpu _ hstep _ _ ih => exact ih (step_schedInv (State.schedInv_countStep hs hcpu) hstep)

/-- No time passes in the loop. -/
theorem RunsDue.tNs_eq (h : RunsDue t s) : t.tNs = s.tNs := by
  induction h with
  | idle => rfl
  | tick _ _ ih => rw [ih, State.runTick_frame]
  | error _ _ hstep _ => have htNs := step_tNs hstep; exact htNs
  | step _ _ hstep _ _ ih => have htNs := step_tNs hstep; exact ih.trans htNs

/-- R239: a run that no error ends leaves nothing due. -/
theorem RunsDue.idle_of_live (h : RunsDue t s) (hlive : t.live) : t.cpuDue = false ∧ t.tmrDue = false := by
  induction h with
  | idle hcpu htmr => exact ⟨hcpu, htmr⟩
  | tick _ _ ih | step _ _ _ _ _ ih => exact ih
  | error _ _ _ hhalt => rw [State.isHalted_of_live hlive] at hhalt; cases hhalt

/-- A scheduler that is not ahead and has nothing due has issued exactly what was due. -/
theorem State.counts_of_idle (h : s.schedInv) (hcpu : s.cpuDue = false) (htmr : s.tmrDue = false) :
    s.cpuDone = s.tNs * s.config.cpuHz / 1000000000 ∧ s.tmrDone = s.tNs * 60 / 1000000000 := by
  obtain ⟨hcpuLe, htmrLe⟩ := h
  rw [← Nat.le_div_iff_mul_le (by decide)] at hcpuLe htmrLe
  rw [← Bool.not_eq_true, State.cpuDue_iff_lt] at hcpu
  rw [← Bool.not_eq_true, State.tmrDue_iff_lt] at htmr
  omega

end

/-- Settles O55: the loop keeps the scheduler not ahead, and a live result leaves nothing due. -/
theorem advanceIssuesExactlyWhatIsDue : Obligations.AdvanceIssuesExactlyWhatIsDue := by
  intro s t ns hs h hlive
  rcases advance_cases h with ⟨⟨f, hm⟩, rfl⟩ | ⟨-, hrun⟩
  · exact absurd hm (hlive f)
  · obtain ⟨hcpu, htmr⟩ := hrun.idle_of_live hlive
    exact ⟨hrun.tNs_eq, State.counts_of_idle (hrun.schedInv (State.schedInv_addTime hs ns)) hcpu htmr⟩

/-! ## The invariant of the machine (R241, R243) -/

section
variable {s t : State}

theorem step_inv (hs : s.Inv) (h : step s = .next t) : t.Inv where
  config := by rw [step_config h]; exact hs.config
  memory := stepsKeepMemoryAndFont s t hs.memory h
  pc := stepsKeepThePcInRange s t hs.pc h
  mode := stepsKeepTheErrorTaxonomy s t hs.mode h
  sched := step_schedInv hs.sched h

theorem State.inv_tickTimers (h : s.Inv) : s.tickTimers.Inv := by
  rw [State.tickTimers_frame]
  exact ⟨h.config, h.memory, h.pc, h.mode, h.sched⟩

theorem State.inv_runTick (h : s.Inv) (hfirst : s.tickFirst = true) : s.runTick.Inv := by
  have hsched := State.schedInv_runTick h.sched hfirst
  rw [State.runTick_frame] at hsched ⊢
  exact ⟨h.config, h.memory, h.pc, h.mode, hsched⟩

theorem State.inv_countStep (h : s.Inv) (hcpu : s.cpuDue = true) : s.countStep.Inv :=
  ⟨h.config, h.memory, h.pc, h.mode, State.schedInv_countStep h.sched hcpu⟩

theorem State.inv_addTime (h : s.Inv) (ns : Nat) : (s.addTime ns).Inv :=
  ⟨h.config, h.memory, h.pc, h.mode, State.schedInv_addTime h.sched ns⟩

theorem State.inv_clearKeys (h : s.Inv) : s.clearKeys.Inv := ⟨h.config, h.memory, h.pc, h.mode, h.sched⟩

/-- R30: a press writes the latch only in WaitingForKey, where any latch is allowed. -/
theorem State.modeInv_setPressed (h : s.modeInv) (k : Nibble) (b : Bool) : (s.setPressed k b).modeInv := by
  unfold State.setPressed
  split
  · next hlatches =>
    obtain ⟨⟨x, hx⟩, -⟩ := State.latches_iff.1 hlatches
    exact State.modeInv_of_waiting (x := x) hx
  · exact h

theorem State.inv_setPressed (h : s.Inv) (k : Nibble) (b : Bool) : (s.setPressed k b).Inv := by
  have hmode := State.modeInv_setPressed h.mode k b
  rw [State.setPressed_frame] at hmode ⊢
  exact ⟨h.config, h.memory, h.pc, hmode, h.sched⟩

theorem RunsDue.inv (h : RunsDue t s) (hs : s.Inv) : t.Inv := by
  induction h with
  | idle => exact hs
  | tick hfirst _ ih => exact ih (State.inv_runTick hs hfirst)
  | error hcpu _ hstep _ => exact step_inv (State.inv_countStep hs hcpu) hstep
  | step hcpu _ hstep _ _ ih => exact ih (step_inv (State.inv_countStep hs hcpu) hstep)

theorem perform_inv {op : HostOp} (hs : s.Inv) (h : perform op s = .next t) : t.Inv := by
  cases op with
  | advance ns =>
    rcases advance_cases h with ⟨-, rfl⟩ | ⟨-, hrun⟩
    · exact hs
    · exact hrun.inv (State.inv_addTime hs ns)
  | step => exact step_inv hs h
  | tickTimers => obtain rfl := next_inj h; exact State.inv_tickTimers hs
  | setPressed k b => obtain rfl := next_inj h; exact State.inv_setPressed hs k b
  | clearKeys => obtain rfl := next_inj h; exact State.inv_clearKeys hs

theorem performAll_cons {op : HostOp} {ops : List HostOp} (h : performAll (op :: ops) s = .next t) :
    ∃ u, perform op s = .next u ∧ performAll ops u = .next t := by
  obtain ⟨u, hu⟩ := perform_answers op s
  simp only [performAll, hu] at h
  exact ⟨u, hu, h⟩

end

/-- Settles O49, by induction on the operations: each keeps the invariant, an advance by every turn of its loop. -/
theorem hostOperationsKeepTheInvariant : Obligations.HostOperationsKeepTheInvariant := by
  intro ops
  induction ops with
  | nil => intro s t hs h; obtain rfl := next_inj h; exact hs
  | cons op ops ih =>
    intro s t hs h
    obtain ⟨u, hu, hrest⟩ := performAll_cons h
    exact ih u t (perform_inv hs hu) hrest

end Sys2Proof.Machine
end

