-- ==== Sys2Proof/Proofs/AdvanceSplit.lean ====
section
/-!
A run of the scheduler depends on the total elapsed time alone (spec/60_exceptions.md R240). No instruction reads the elapsed
time, so a step commutes with its passing, and an event that is next stays next when more time has passed.
-/

namespace Sys2Proof.Machine

/-! ## Shared operations do not read the elapsed time -/

section
variable (s : State) (n : Nat)

theorem State.putBytes_addTime (base : Nat) (bs : List Byte) :
    (s.addTime n).putBytes base bs = (s.putBytes base bs).addTime n := by
  induction bs generalizing s base with
  | nil => rfl
  | cons b rest ih => exact ih (s.putByte base b) (base + 1)

theorem State.loadRegs_addTime (k : Nat) (bs : List Byte) :
    (s.addTime n).loadRegs k bs = (s.loadRegs k bs).addTime n := by
  induction bs generalizing s k with
  | nil => rfl
  | cons b rest ih => exact ih (s.setV (BitVec.ofNat 4 k) b) (k + 1)

theorem State.skipIf_addTime (c : Bool) : (s.addTime n).skipIf c = (s.skipIf c).addTime n := by
  cases c <;> rfl

theorem State.push_addTime (w : Word) : (s.addTime n).push w = (s.push w).map (State.addTime · n) := by
  by_cases h : s.sp.val < 16
  · have h' : (s.addTime n).sp.val < 16 := h
    rw [State.push, State.push, dif_pos h, dif_pos h']
    rfl
  · have h' : ¬ (s.addTime n).sp.val < 16 := h
    rw [State.push, State.push, dif_neg h, dif_neg h']
    rfl

theorem State.pop_addTime : (s.addTime n).pop = s.pop.map (Prod.map id (State.addTime · n)) := by
  unfold State.pop
  simp only [State.addTime_sp]
  split <;> rfl

theorem State.waitStep_addTime (x : Nibble) : (s.addTime n).waitStep x = (s.waitStep x).addTime n := by
  rw [State.waitStep_eq, State.waitStep_eq, State.addTime_latch]
  cases s.latch <;> rfl

theorem State.invalidWord_addTime (w : Word) : (s.addTime n).invalidWord w = (s.invalidWord w).addTime n := by
  unfold State.invalidWord
  rw [State.addTime_config]
  cases s.config.invalidOpcodePolicy <;> rfl

theorem State.runTick_addTime : (s.addTime n).runTick = s.runTick.addTime n := by
  unfold State.runTick State.tickTimers
  rw [show (s.addTime n).isHalted = s.isHalted from rfl]
  cases s.isHalted <;> rfl

end

/-! ## Instructions and steps do not read the elapsed time -/

/-- The outcome with `n` more nanoseconds passed in its next state. -/
def outcomeAddTime (n : Nat) : Host.Outcome State Fault Refusal → Host.Outcome State Fault Refusal
  | .next t => .next (t.addTime n)
  | .fault r => .fault r
  | .refused r => .refused r

section
variable {s t : State} (n : Nat)

theorem exec_addTime (i : Instr) (s : State) : exec i (s.addTime n) = outcomeAddTime n (exec i s) := by
  cases i with
  | ret =>
    simp only [exec, execRet, State.pop_addTime]
    cases s.pop <;> rfl
  | call nnn =>
    simp only [exec, execCall, State.push_addTime, State.addTime_pc]
    cases s.push s.pc <;> rfl
  | seImm | sneImm | seReg | sneReg => exact congrArg Host.Outcome.next (State.skipIf_addTime s n _)
  | skp x | sknp x =>
    simp only [exec, execSkp, execSknp, State.getV_addTime]
    cases asDigit (s.getV x) with
    | none => rfl
    | some d => exact congrArg Host.Outcome.next (State.skipIf_addTime s n _)
  | ldFVx x =>
    simp only [exec, execLdFVx, State.getV_addTime]
    cases asDigit (s.getV x) <;> rfl
  | drw x y m =>
    simp only [exec, execDrw, State.addTime_i]
    cases lowestFault readFaults s.i.toNat m.toNat <;> rfl
  | ldBVx x =>
    simp only [exec, execLdBVx, State.addTime_i, State.putBytes_addTime]
    cases lowestFault writeFaults s.i.toNat 3 <;> rfl
  | ldMemVx x =>
    simp only [exec, execLdMemVx, State.addTime_i, State.putBytes_addTime]
    cases lowestFault writeFaults s.i.toNat (blockSize x) <;> rfl
  | ldVxMem x =>
    simp only [exec, execLdVxMem, State.addTime_i, State.loadRegs_addTime]
    cases lowestFault readFaults s.i.toNat (blockSize x) <;> rfl
  | _ => rfl

/-- A step does the same when more time has passed. -/
theorem step_addTime (h : step s = .next t) : step (s.addTime n) = .next (t.addTime n) := by
  rcases step_cases h with ⟨f, hm, rfl⟩ | ⟨x, hm, rfl⟩ | ⟨hm, ⟨a, ha, rfl⟩ | ⟨hpc, hw, rfl⟩ | ⟨i, hpc, hw, hi⟩⟩
  · exact step_of_halted (s := t.addTime n) hm
  · rw [← State.waitStep_addTime]
    exact step_of_waiting (s := s.addTime n) hm
  · exact step_of_fetchFault (s := s.addTime n) hm ha
  · rw [← State.invalidWord_addTime]
    exact step_of_invalid (s := s.addTime n) hm (Nat.add_le_add_right hpc 2) hw
  · calc step (s.addTime n)
      _ = exec i ((s.setPc (s.pc + 2)).addTime n) :=
        step_of_decode (s := s.addTime n) hm (Nat.add_le_add_right hpc 2) hw
      _ = .next (t.addTime n) := by rw [exec_addTime, hi]; rfl

end

/-! ## The order of events does not depend on the elapsed time -/

/-- R239: event `a` of a clock of rate `r` comes before event `b` of a clock of rate `r'` when at some time the first is due
and the second is not. -/
theorem order_of_due {a b r r' time : Nat} (hpos : 0 < a) (hdue : a * 1000000000 ≤ time * r)
    (hnot : time * r' < b * 1000000000) : a * r' < b * r := by
  have hr : 0 < r := by
    rcases Nat.eq_zero_or_pos r with rfl | hr
    · omega
    · exact hr
  refine Nat.lt_of_mul_lt_mul_right (a := 1000000000) ?_
  calc a * r' * 1000000000 = a * 1000000000 * r' := Nat.mul_right_comm _ _ _
    _ ≤ time * r * r' := Nat.mul_le_mul_right r' hdue
    _ = time * r' * r := Nat.mul_right_comm _ _ _
    _ < b * 1000000000 * r := Nat.mul_lt_mul_of_pos_right hnot hr
    _ = b * r * 1000000000 := Nat.mul_right_comm _ _ _

section
variable {s t : State} (n : Nat)

theorem State.cpuDue_addTime (h : s.cpuDue = true) : (s.addTime n).cpuDue = true := by
  rw [State.cpuDue_iff] at h ⊢
  exact h.trans (Nat.mul_le_mul_right _ (Nat.le_add_right _ _))

theorem State.tmrDue_addTime (h : s.tmrDue = true) : (s.addTime n).tmrDue = true := by
  rw [State.tmrDue_iff] at h ⊢
  exact h.trans (Nat.mul_le_mul_right _ (Nat.le_add_right _ _))

/-- R239: a tick that goes first still does when more time has passed: a step that has become due is due after it. -/
theorem State.tickFirst_addTime (h : s.tickFirst = true) : (s.addTime n).tickFirst = true := by
  obtain ⟨htmr, horder⟩ := State.tickFirst_iff.1 h
  refine State.tickFirst_iff.2 ⟨State.tmrDue_addTime n htmr, .inr ?_⟩
  rcases horder with hcpu | horder
  · rw [← Bool.not_eq_true, State.cpuDue_iff, Nat.not_le] at hcpu
    exact (order_of_due (Nat.succ_pos _) (State.tmrDue_iff.1 htmr) hcpu).le
  · exact horder

/-- R239: a step that goes first still does when more time has passed: a tick that has become due is due after it. -/
theorem State.stepFirst_addTime (hcpu : s.cpuDue = true) (hfirst : s.tickFirst = false) :
    (s.addTime n).tickFirst = false := by
  refine State.tickFirst_eq_false_iff.2 fun _ => ⟨State.cpuDue_addTime n hcpu, ?_⟩
  cases htmr : s.tmrDue with
  | true => exact (State.tickFirst_eq_false_iff.1 hfirst htmr).2
  | false =>
    rw [← Bool.not_eq_true, State.tmrDue_iff, Nat.not_le] at htmr
    exact order_of_due (Nat.succ_pos _) ((State.cpuDue_iff (s := s)).1 hcpu) htmr

/-- A run that no error ends is the beginning of the run with more time passed. -/
theorem RunsDue.runDue_addTime (h : RunsDue t s) (hlive : t.live) :
    (s.addTime n).runDue = (t.addTime n).runDue := by
  induction h with
  | idle => rfl
  | tick hfirst _ ih => rw [State.runDue_of_tick (State.tickFirst_addTime n hfirst), State.runTick_addTime, ih]
  | error _ _ _ hhalt => rw [State.isHalted_of_live hlive] at hhalt; cases hhalt
  | @step s u hcpu hfirst hstep hu _ ih =>
    have hhalt : (u.addTime n).isHalted = false := hu
    rw [State.runDue_of_step (State.cpuDue_addTime n hcpu) (State.stepFirst_addTime n hcpu hfirst)
      (step_addTime n hstep), hhalt, if_neg Bool.false_ne_true, ih]

end

theorem State.addTime_addTime (s : State) (a b : Nat) : (s.addTime a).addTime b = s.addTime (a + b) := by
  simp only [State.addTime, Nat.add_assoc]

/-- Settles O56: the run of the first advance is the beginning of the run by the sum, and the second advance is the rest. -/
theorem advanceIsIndependentOfTheSplit : Obligations.AdvanceIsIndependentOfTheSplit := by
  intro s t a b h hlive
  rcases advance_cases h with ⟨⟨f, hm⟩, rfl⟩ | ⟨hs, hrun⟩
  · exact absurd hm (hlive f)
  · calc advance b t
      _ = (t.addTime b).runDue := advance_of_live hlive b
      _ = ((s.addTime a).addTime b).runDue := (hrun.runDue_addTime b hlive).symm
      _ = (s.addTime (a + b)).runDue := by rw [State.addTime_addTime]
      _ = advance (a + b) s := (advance_of_live hs _).symm

end Sys2Proof.Machine
end

