-- ==== Sys2Proof/Proofs/Random.lean ====
section
/-!
RND Vx, byte (spec/42_alu.md R142): one draw, and one write of `V[x]`.
-/

namespace Sys2Proof.Machine

/-- Settles O25: it is one write of `V[x]` in the state after one draw, and a draw changes no register and no byte. -/
theorem rndMasksOneDraw : Obligations.RndMasksOneDraw := by
  intro x kk
  refine ⟨decodeWord_encode (.rnd x kk), fun s => ?_⟩
  obtain ⟨hv, hframe, hbytes⟩ := s.rngAdvance.setV_frame x (s.rngNext &&& kk)
  exact ⟨_, rfl, State.getV_setV_same _ x _, rfl, hv, hframe, hbytes⟩

end Sys2Proof.Machine
end
